-- ==== Sys2Proof/Word.lean ====
section
/-! DEFINITION. The word types of the SPI DMA Transfer Engine (spec/00_scope.md R11, R15;
spec/30_encoding.md R60). -/

namespace Sys2Proof

/-- A buffer cell, an operand and a response's data are 32 bits wide (R11, R40, R61). -/
abbrev Word := BitVec 32

/-- One byte lane of a cell (R41). -/
abbrev Byte := BitVec 8

/-- A command word `cmd[34:0]` (R60). -/
abbrev CmdWord := BitVec 35

end Sys2Proof
end

