-- ==== Sys2Proof/Config.lean ====
section
/-! DEFINITION. The parameters of an engine instance (spec/00_scope.md R11–R13) and the free values: what
the spec leaves open and no proof may see. -/

namespace Sys2Proof.Config

/-- The least width that holds every value `0 .. n` (R13: "the least width that holds 0..CAPACITY"). -/
def bitWidth (n : Nat) : Nat := n.log2 + 1

/-- The parameters a model takes as arguments (R11–R13). They are fixed for one engine instance; no step
changes them. -/
structure Params where
  /-- CAPACITY, the number of 32-bit cells of the Transfer Buffer (R11). -/
  capacity : Nat
  /-- PREFIX_BYTES (P), the number of bytes of cell 0 sent at the front of each burst (R12). -/
  prefixBytes : Nat
  /-- BUSY_SENTINEL, the non-zero busy byte (R13, R23). -/
  busySentinel : Byte
  /-- BUFFER_BASE, the platform address of buffer byte 0 (R13, R48). -/
  bufferBase : Nat
  /-- DEBUG_ASSERT: a ConcurrentAccess sets FAULT.conc (R13, R102). -/
  debugAssert : Bool
deriving DecidableEq, Repr

/-- CURSOR_BITS (R13): 11 for CAPACITY = 1025. -/
def Params.cursorBits (p : Params) : Nat := bitWidth p.capacity

/-- The width of `arm_addr`, `arm_len` and the LENGTH field (R30, R34: 13 bits, "enough for
4·CAPACITY − 1 = 4099"). -/
def Params.latchBits (p : Params) : Nat := bitWidth (4 * p.capacity - 1)

/-- FREE VALUE: picks the OPEN parameter BUSY_SENTINEL among the 255 non-zero bytes (R13, R23). -/
opaque freeSentinel : Fin 255

/-- FREE VALUE: the OPEN parameter BUFFER_BASE (R13, R48). -/
opaque freeBufferBase : Nat

/-- FREE VALUE: the byte drawn for a burst byte whose cell holds no value (R21, R43): `freeByte k n` at draw
`n` of stream `k`. DESIGN CHOICE (log 7, log 21): one stream for each engine instance, so that nothing relates
the draws of two instances whose streams differ; instances given one stream number draw alike, which the spec
does not say. -/
opaque freeByte : Nat → Nat → Byte

/-- FREE VALUE: whether SEQ takes ACK before FINALIZE the `n`-th time both are enabled and nothing outside
fixed their order (R50, R107: "Which enabled step comes first is left open"): `seqAcksFirst k n` in stream
`k`. DESIGN CHOICE (log 8, log 21): one stream for each engine instance, as for `freeByte`. -/
opaque seqAcksFirst : Nat → Nat → Bool

/-- The instance the spec describes: CAPACITY = 1025 (R11), P = 3 (R12), DEBUG_ASSERT true and the two OPEN
parameters left free (R13). -/
def params : Params where
  capacity := 1025
  prefixBytes := 3
  busySentinel := BitVec.ofNat 8 (freeSentinel.val + 1)
  bufferBase := freeBufferBase
  debugAssert := true

end Sys2Proof.Config
end

