-- ==== Sys2Proof/Syntax.lean ====
section
/-! DEFINITION. The commands of the engine: one constructor per row of spec/opcode_table.json
(spec/30_encoding.md R62). The commands that ignore `data` carry none (R63). -/

namespace Sys2Proof

/-- A command of the command port (R5, R62). -/
inductive Instr where
  /-- RESERVED_000, op 0b000: executes as ILLEGAL (R64, R78). -/
  | reserved000
  /-- BUF_RESET, op 0b001 (R70). -/
  | bufReset
  /-- APPEND, op 0b010, with the word to store (R71). -/
  | append (data : Word)
  /-- PREFIX, op 0b011, with the prefix word (R72). -/
  | prefixCell (data : Word)
  /-- START, op 0b100 (R75). -/
  | start
  /-- IS_BUSY, op 0b101 (R76). -/
  | isBusy
  /-- LENGTH, op 0b110 (R73). -/
  | length
  /-- READ_FAULTS, op 0b111 (R77). -/
  | readFaults
deriving DecidableEq, Repr

end Sys2Proof
end

