-- ==== Sys2Proof/WellFormed.lean ====
section
/-! DEFINITION. Well-formedness. A command itself has no ill-formed term: its one operand is a raw 32-bit
value of any content (spec/30_encoding.md R63) and its type has that width. What can be ill formed is an
instance's parameters (spec/00_scope.md R11–R13) and an assembler line (spec/30_encoding.md R66). -/

namespace Sys2Proof

/-- The bounds the spec puts on the parameters: CAPACITY ≥ 2 (R11), 0 ≤ P ≤ 3 (R12), BUSY_SENTINEL ≠ 0x00
(R13, R23). DEDUCED (log 17): the buffer's byte space fits the 32-bit response data that LENGTH returns
a length in (R34, R61), so that no length is cut. -/
abbrev Config.Params.wf (p : Config.Params) : Prop :=
  2 ≤ p.capacity ∧ p.prefixBytes ≤ 3 ∧ p.busySentinel ≠ 0#8 ∧ 4 * p.capacity ≤ 2 ^ 32

/-- One line of assembler (R66): "the mnemonic, then the data operand for APPEND and PREFIX only", and
`.reserved` with a raw word. Operands are the numbers written in the line. -/
inductive AsmLine where
  | bufReset
  | append (operand : Nat)
  | prefixCell (operand : Nat)
  | start
  | isBusy
  | length
  | readFaults
  | reserved (raw : Nat)
deriving DecidableEq, Repr

/-- A line is well formed when its operand is a 32-bit literal, and for `.reserved` when the raw word's
opcode field is the reserved 0b000, that is when it is below `1 << 32` (R60, R64, R66). -/
def AsmLine.wf : AsmLine → Bool
  | .append d => decide (d < 2 ^ 32)
  | .prefixCell d => decide (d < 2 ^ 32)
  | .reserved raw => decide (raw < 2 ^ 32)
  | .bufReset | .start | .isBusy | .length | .readFaults => true

end Sys2Proof
end

