-- ==== Sys2Proof/Decode.lean ====
section
/-! DEFINITION. Decoding and encoding a command word (spec/30_encoding.md R60–R66). The port is 35 wires
wide and every one of the eight opcodes has a row (R62), so decoding a word is total; a number that is no
35-bit word is refused by name. -/

namespace Sys2Proof

/-- The `data` field, `cmd[31:0]` (R60). -/
def dataField (w : CmdWord) : Word := w.extractLsb' 0 32

/-- The `op` field, `cmd[34:32]` (R60). -/
def opField (w : CmdWord) : BitVec 3 := w.extractLsb' 32 3

/-- The decoder selects the operation by `cmd[34:32]` alone (R62); bits 34, 33 and 32 are written in the
order of the table's `op` column. -/
def decodeCommand (w : CmdWord) : Instr :=
  match w.getLsbD 34, w.getLsbD 33, w.getLsbD 32 with
  | false, false, false => .reserved000
  | false, false, true  => .bufReset
  | false, true,  false => .append (dataField w)
  | false, true,  true  => .prefixCell (dataField w)
  | true,  false, false => .start
  | true,  false, true  => .isBusy
  | true,  true,  false => .length
  | true,  true,  true  => .readFaults

/-- Why a number is no command. -/
inductive DecodeError where
  /-- A bit above bit 34 is set; a command is one 35-bit word (R60, R65). -/
  | widerThanCommand
deriving DecidableEq, Repr

/-- Decoding a number of any size, its bit 0 the word's bit 0. -/
def decodeBits (n : Nat) : Except DecodeError Instr :=
  if n < 2 ^ 35 then .ok (decodeCommand (BitVec.ofNat 35 n)) else .error .widerThanCommand

/-- The instruction read from a word numbered as spec/opcode_table.json numbers it: bits above `nbits` are 0. -/
def decodeTableWord (nbits w : Nat) : Option Instr :=
  match decodeBits (w % 2 ^ nbits) with
  | .ok i => some i
  | .error _ => none

/-- A command's `op` value (R62). -/
def opOf : Instr → BitVec 3
  | .reserved000  => 0b000#3
  | .bufReset     => 0b001#3
  | .append _     => 0b010#3
  | .prefixCell _ => 0b011#3
  | .start        => 0b100#3
  | .isBusy       => 0b101#3
  | .length       => 0b110#3
  | .readFaults   => 0b111#3

/-- A command's `data` operand; the commands that ignore it are written with 0 (R63). -/
def operandOf : Instr → Word
  | .append d => d
  | .prefixCell d => d
  | .reserved000 | .bufReset | .start | .isBusy | .length | .readFaults => 0#32

/-- The command word: `op` in bits 34:32, `data` in bits 31:0 (R60). -/
def encode (i : Instr) : CmdWord := opOf i ++ operandOf i

/-- One row of the opcode table: its mnemonic, match and mask (R62). -/
structure OpRow where
  mnemonic : String
  bits : CmdWord
  mask : CmdWord
deriving DecidableEq, Repr

/-- The opcode map (R62): "Its match is `op << 32` and its mask is `0x700000000`." -/
def opTable : List OpRow :=
  [ ⟨"RESERVED_000", 0x000000000#35, 0x700000000#35⟩,
    ⟨"BUF_RESET",    0x100000000#35, 0x700000000#35⟩,
    ⟨"APPEND",       0x200000000#35, 0x700000000#35⟩,
    ⟨"PREFIX",       0x300000000#35, 0x700000000#35⟩,
    ⟨"START",        0x400000000#35, 0x700000000#35⟩,
    ⟨"IS_BUSY",      0x500000000#35, 0x700000000#35⟩,
    ⟨"LENGTH",       0x600000000#35, 0x700000000#35⟩,
    ⟨"READ_FAULTS",  0x700000000#35, 0x700000000#35⟩ ]

/-- The row's match and mask select the word. -/
def OpRow.selects (r : OpRow) (w : CmdWord) : Bool := (w &&& r.mask) == r.bits

/-- A command's mnemonic as the opcode table spells it. -/
def mnemonicOf : Instr → String
  | .reserved000  => "RESERVED_000"
  | .bufReset     => "BUF_RESET"
  | .append _     => "APPEND"
  | .prefixCell _ => "PREFIX"
  | .start        => "START"
  | .isBusy       => "IS_BUSY"
  | .length       => "LENGTH"
  | .readFaults   => "READ_FAULTS"

/-- The command an assembler line stands for (R66). -/
def AsmLine.toInstr : AsmLine → Instr
  | .bufReset => .bufReset
  | .append d => .append (BitVec.ofNat 32 d)
  | .prefixCell d => .prefixCell (BitVec.ofNat 32 d)
  | .start => .start
  | .isBusy => .isBusy
  | .length => .length
  | .readFaults => .readFaults
  | .reserved _ => .reserved000

/-- The word a line assembles to, or none where the line is ill formed. `.reserved` writes its raw word as
it stands (R66). -/
def AsmLine.assemble (l : AsmLine) : Option CmdWord :=
  if l.wf then
    match l with
    | .reserved raw => some (BitVec.ofNat 35 raw)
    | .bufReset | .append _ | .prefixCell _ | .start | .isBusy | .length | .readFaults =>
      some (encode l.toInstr)
  else none

end Sys2Proof
end

