-- ==== Sys2Proof/Machine/State.lean ====
section
/-! DEFINITION. The engine's state as plain data (spec/10_state.md), the inputs and outputs at its boundary,
and the state after a power-on reset (spec/70_reset_and_hazards.md R120, R121). -/

namespace Sys2Proof.Machine

/-- `state`, the source's TransferState (R22). -/
inductive TransferState where
  | idle
  | busy
deriving DecidableEq, Repr

/-- `phase`, meaningful only while Busy (R27). -/
inductive Phase where
  | armed
  | drain
deriving DecidableEq, Repr

/-- The FAULT register: three sticky diagnostic bits (R33). -/
structure FaultBits where
  conc : Bool
  spurious : Bool
  illegal : Bool
deriving DecidableEq, Repr

/-- `rsp_status` (R61). -/
inductive Status where
  | ok
  | bufferFull
  | concurrentAccess
  | illegal
deriving DecidableEq, Repr

/-- The response a command step returns (R61). -/
structure Response where
  status : Status
  data : Word
deriving DecidableEq, Repr

/-- An event of the interface trace (R36). -/
inductive Event where
  | csAssert
  | rxSuppress
  | arm (ptr len : Nat)
  | cplAck
  | rxRestore
  | csDeassert
  | wire (b : Byte)
  | complete
  | hwReset
deriving DecidableEq, Repr

/-- The exceptions a step can raise (R100). DrainHang is no member: it is FINALIZE never being enabled
(R106), so nothing raises it. -/
inductive Exc where
  | bufferFull
  | concurrentAccess
  | emptyTransfer
  | illegal
  | spuriousCompletion
deriving DecidableEq, Repr

/-- One move of one agent: what a host program's line says (R66–R68). A list of them is one interleaving of
the three agents (R50). -/
inductive Turn where
  /-- PRODUCER presents a command word on the command port (R60). -/
  | command (cmd : CmdWord)
  /-- PRODUCER makes one pass of POLL_IDLE, `L: IS_BUSY ; if rsp_data != 0 goto L` (R67). -/
  | pollIdle
  /-- SEQ takes whichever of its steps is enabled (R50, R89). -/
  | seq
  /-- `#ACK` (R68, R81). -/
  | ack
  /-- `#FINALIZE` (R68, R82). -/
  | finalize
  /-- PLATFORM puts the next byte of the armed burst on the wire (R84). -/
  | wire
  /-- `@COMPLETE` (R68, R80). -/
  | complete
  /-- `@TX_BUSY=level` (R32, R68). -/
  | txBusy (level : Bool)
  /-- A hardware reset (R120, R121). -/
  | hwReset
deriving DecidableEq, Repr

/-- The Transfer Buffer's byte view: (byte address, byte) pairs, addresses strictly rising. An address that
is not listed holds no value (R21, R43). -/
abbrev Memory := List Host.Cell

/-- The state of one engine instance (R20), with the inputs its next steps take and the outputs of its last. -/
structure State where
  /-- The instance's parameters (R11–R13); no step changes them. -/
  params : Config.Params
  /-- `W`, the Transfer Buffer (R21), in its byte view (R41). -/
  mem : Memory
  /-- `cursor` (R24). -/
  cursor : Nat
  /-- `state` (R22). -/
  xfer : TransferState
  /-- `phase` (R27). -/
  phase : Phase
  /-- `cs_active`, output: chip-select is asserted (R28). -/
  csActive : Bool
  /-- `rx_suppressed`, output (R29). -/
  rxSuppressed : Bool
  /-- `arm_addr`, the burst's buffer-relative byte address (R30). -/
  armAddr : Nat
  /-- `arm_len`, the burst's byte count (R30). -/
  armLen : Nat
  /-- `cpl_pending`, the completion latch (R31). -/
  cplPending : Bool
  /-- `FAULT` (R33). -/
  faults : FaultBits
  /-- `tx_busy`, input: the level PLATFORM drives (R32). -/
  txBusy : Bool
  /-- The moves the agents make next, in the order they are taken (R50); the head of the command port is the
  first `command` of it (R20, R26). -/
  turns : List Turn
  /-- The response the last step returned, none where that step was no command (R61). -/
  rsp : Option Response
  /-- The interface trace, oldest event first (R36). -/
  trace : List Event
  /-- PLATFORM's progress: bytes of the armed burst already on the wire (R84). -/
  wireSent : Nat
  /-- The MODEL's own: how many free bytes have been drawn (R43). -/
  draws : Nat
  /-- The MODEL's own: how many free choices between SEQ's steps have been made (R107). -/
  choices : Nat
  /-- The MODEL's own: which stream of free values this instance draws from (log 21); no step changes it. -/
  stream : Nat
deriving DecidableEq, Repr

/-- Why the machine stops. No run from reset stops (the invariant of Safety.lean rules the cause out). -/
inductive Fault where
  /-- A cell store (PREFIX, APPEND) or a burst read (a WIRE turn) at a byte address outside
  `0 .. 4·CAPACITY − 1`, where no buffer exists (R42). Raised by `storeCell` and `wireStep`. Safe: the model
  stops in states no run reaches. -/
  | outsideBuffer (address : Nat)
deriving DecidableEq, Repr

/-- Why an instruction gets no meaning. -/
inductive Refusal where
  /-- An instruction with no meaning yet; raised by an arm of `exec` only. Safe. No arm raises it now. -/
  | notModelled (mnemonic : String)
deriving DecidableEq, Repr

/-- The state after a power-on reset of an instance with parameters `p` that draws its free values from stream
`k` (R120, R121): the reset values of spec/10_state.md; no cell holds a value; the trace is empty. DESIGN
CHOICE (log 6, 7, 8, 9, 10): 0 for `arm_addr` and `arm_len`, which the spec leaves unspecified and nothing
reads while Idle; 0 for the level of the input `tx_busy` and for the model's own counters. DESIGN CHOICE
(log 21): two instances powered on with one `k` draw the same free values in the same places, with different
`k` nothing relates them. Nothing has been placed in `turns` (log 3). -/
def State.powerOn (p : Config.Params) (k : Nat) : State where
  params := p
  mem := []
  cursor := 1
  xfer := .idle
  phase := .armed
  csActive := false
  rxSuppressed := false
  armAddr := 0
  armLen := 0
  cplPending := false
  faults := ⟨false, false, false⟩
  txBusy := false
  turns := []
  rsp := none
  trace := []
  wireSent := 0
  draws := 0
  choices := 0
  stream := k

/-- The instance the spec describes, right after power-on: the first, so stream 0 (log 21). -/
def State.reset : State := State.powerOn Config.params 0

end Sys2Proof.Machine
end

