-- ==== Sys2Proof/Machine/Operands.lean ====
section
/-! DEFINITION. Operands: the cell a command addresses implicitly, the lanes of a cell, and the lengths and
addresses START and LENGTH compute from the cursor (spec/20_memory.md R41–R45, spec/30_encoding.md R63). -/

namespace Sys2Proof.Machine

/-- The cell APPEND stores to: implied by the cursor, post-increment (R63, R71). -/
def appendCell (s : State) : Nat := s.cursor

/-- The cell PREFIX stores to (R72). -/
def prefixCellIndex : Nat := 0

/-- The buffer byte address of lane `k` of cell `i` (R41). -/
def laneAddr (i k : Nat) : Nat := 4 * i + k

/-- Byte lane `k` of a cell's value: `v[8k+7 : 8k]` (R41). -/
def laneByte (v : Word) (k : Nat) : Byte := v.extractLsb' (8 * k) 8

/-- A cell's value from its four lanes, lane 0 least significant (R41). -/
def cellOfLanes (b0 b1 b2 b3 : Byte) : Word := b3 ++ b2 ++ b1 ++ b0

/-- The number of bytes of the buffer's byte space (R37, R42). -/
def bufferBytes (p : Config.Params) : Nat := 4 * p.capacity

/-- `length_in_bytes` (R73): "returns 0 if `cursor <= 1`", else `4 * (cursor - 1)`. -/
def lengthInBytes (cursor : Nat) : Nat := if cursor ≤ 1 then 0 else 4 * (cursor - 1)

/-- `arm_addr`: the burst starts at byte `4 − P` of the buffer (R45). -/
def burstAddr (p : Config.Params) : Nat := 4 - p.prefixBytes

/-- `arm_len`: `4·(cursor − 1) + P` bytes (R45). -/
def burstLen (p : Config.Params) (cursor : Nat) : Nat := 4 * (cursor - 1) + p.prefixBytes

/-- The platform address an ARM event carries (R48, R87). -/
def platformAddr (p : Config.Params) (a : Nat) : Nat := p.bufferBase + a

end Sys2Proof.Machine
end

