-- ==== Sys2Proof/Machine/Flags.lean ====
section
/-! DEFINITION. The status indications (spec/10_state.md R23, R33, R34, R38): the busy byte, the FAULT bits,
the response codes, and what each exception does to them (spec/60_exceptions.md R100). -/

namespace Sys2Proof.Machine

/-- `rsp_status[1:0]` (R61). -/
def Status.code : Status → BitVec 2
  | .ok => 0b00#2
  | .bufferFull => 0b01#2
  | .concurrentAccess => 0b10#2
  | .illegal => 0b11#2

/-- The status an exception's response carries (R100); SpuriousCompletion gives no response. -/
def Exc.status : Exc → Option Status
  | .bufferFull => some .bufferFull
  | .concurrentAccess => some .concurrentAccess
  | .emptyTransfer => some .ok
  | .illegal => some .illegal
  | .spuriousCompletion => none

/-- The effect column of R100: the FAULT bits after an exception. -/
def Exc.faultsAfter (p : Config.Params) (e : Exc) (f : FaultBits) : FaultBits :=
  match e with
  | .bufferFull => f
  | .concurrentAccess => { f with conc := f.conc || p.debugAssert }
  | .emptyTransfer => f
  | .illegal => { f with illegal := true }
  | .spuriousCompletion => { f with spurious := true }

/-- The busy byte (R23): BUSY_SENTINEL while Busy, 0x00 while Idle. -/
def busyByte (s : State) : Byte :=
  match s.xfer with
  | .busy => s.params.busySentinel
  | .idle => 0x00#8

/-- STATUS, the read of IS_BUSY (R34, R76): the busy byte in bits 7:0, zeros above. -/
def statusRead (s : State) : Word := (busyByte s).setWidth 32

/-- LENGTH (R34, R73): `zext_32(len[12:0])`; 13 is the latch width of CAPACITY = 1025. -/
def lengthRead (s : State) : Word :=
  (BitVec.ofNat s.params.latchBits (lengthInBytes s.cursor)).setWidth 32

/-- FAULTS, the read of READ_FAULTS (R34, R77): `zext_32({illegal, spurious, conc})`. -/
def faultsRead (s : State) : Word :=
  (BitVec.ofBool s.faults.illegal ++ BitVec.ofBool s.faults.spurious
    ++ BitVec.ofBool s.faults.conc).setWidth 32

end Sys2Proof.Machine
end

