-- ==== Sys2Proof/Machine/Ops.lean ====
section
/-! DEFINITION. The named operations every step is written over: the buffer's bytes and cells
(spec/20_memory.md R41–R43), `respond`, `raise` and `emit` (spec/00_scope.md R17), and the check every
buffer-mutating command makes first (spec/60_exceptions.md R102, R107). -/

namespace Sys2Proof.Machine

/-- What a step answers. -/
abbrev Result := Host.Outcome State Fault Refusal

/-- Sequencing within one step (R17: "Statements in one step take effect in program order"). -/
def andThen (r : Result) (k : State → Result) : Result :=
  match r with
  | .next s => k s
  | .fault f => .fault f
  | .refused x => .refused x

/-- The canonical form: addresses strictly rising. An unlisted address holds no value, which no entry can
equal, so this is the whole of it. -/
abbrev Memory.wf (m : Memory) : Prop := (m.map Prod.fst).Pairwise (· < ·)

/-- The byte at an address, none where nothing has been written (R21, R43). -/
def Memory.read : Memory → Nat → Option Byte
  | [], _ => none
  | (a', b) :: m, a => if a = a' then some b else Memory.read m a

/-- Writing one byte, keeping the canonical form. -/
def Memory.write : Memory → Nat → Byte → Memory
  | [], a, b => [(a, b)]
  | (a', b') :: m, a, b =>
    if a < a' then (a, b) :: (a', b') :: m
    else if a = a' then (a, b) :: m
    else (a', b') :: Memory.write m a b

/-- `MemWrite(4·i, 4, v)`, that is `W[i] <- v` (R43): the four lanes of cell `i` (R41). -/
def Memory.writeCell (m : Memory) (i : Nat) (v : Word) : Memory :=
  let m0 := Memory.write m (laneAddr i 0) (laneByte v 0)
  let m1 := Memory.write m0 (laneAddr i 1) (laneByte v 1)
  let m2 := Memory.write m1 (laneAddr i 2) (laneByte v 2)
  Memory.write m2 (laneAddr i 3) (laneByte v 3)

/-- `W[i]`, none where the cell holds no value (R21). -/
def Memory.readCell (m : Memory) (i : Nat) : Option Word :=
  match Memory.read m (laneAddr i 0), Memory.read m (laneAddr i 1),
      Memory.read m (laneAddr i 2), Memory.read m (laneAddr i 3) with
  | some b0, some b1, some b2, some b3 => some (cellOfLanes b0 b1 b2 b3)
  | _, _, _, _ => none

/-- One byte as the burst reads it: its value, or draw `d` of the instance's stream `k` where the cell holds
none (R43). DESIGN CHOICE (log 21): only instances with different streams draw unrelated bytes. -/
def Memory.burstByte (m : Memory) (a k d : Nat) : Byte :=
  match Memory.read m a with
  | some b => b
  | none => Config.freeByte k d

/-- `MemRead(a, n)` (R43): the bytes at `a, a+1, …, a+n−1`, in that order, drawing from the machine's draw
counter where a cell holds no value. -/
def memRead (s : State) (a n : Nat) : List Byte :=
  (List.range n).map fun j => Memory.burstByte s.mem (a + j) s.stream (s.draws + j)

/-- `emit Ev` (R17, R36). -/
def emit (e : Event) (s : State) : State := { s with trace := s.trace ++ [e] }

/-- `respond(s, d)` (R17, R61). -/
def respond (st : Status) (d : Word) (s : State) : State := { s with rsp := some ⟨st, d⟩ }

/-- TAKING AN EXCEPTION, `raise E()` (R17, R100): the FAULT bits of E's effect column, then E's response with
data 0x00000000 where E has a response. It saves nothing and changes no mode (R110). -/
def raise (e : Exc) (s : State) : State :=
  let s1 := { s with faults := e.faultsAfter s.params s.faults }
  match e.status with
  | some c => respond c 0x00000000#32 s1
  | none => s1

/-- `W[i] <- v` in the state. An index past the buffer names no cell (R42). -/
def storeCell (i : Nat) (v : Word) (s : State) : Result :=
  if i < s.params.capacity then .next { s with mem := Memory.writeCell s.mem i v }
  else .fault (.outsideBuffer (laneAddr i 0))

/-- `if state == Busy: raise ConcurrentAccess()`, the first check of BUF_RESET, APPEND, PREFIX and START
(R102, R107). -/
def whileIdle (k : State → Result) (s : State) : Result :=
  match s.xfer with
  | .busy => .next (raise .concurrentAccess s)
  | .idle => k s

/-- `emit CPL_ACK; cpl_pending <- 0`, the acknowledgement that ACK (R81) and START's stale-latch path (R75)
share. -/
def ackLatch (s : State) : State := { emit .cplAck s with cplPending := false }

/-- START's stale-latch path (R75, R105): acknowledge a completion still latched and raise
SpuriousCompletion, which does not end the step (R107). -/
def clearStaleLatch (s : State) : State :=
  if s.cplPending then raise .spuriousCompletion (ackLatch s) else s

/-- Steps 1 to 4 of START, in their order (R75, R127); PLATFORM has sent no byte of this burst yet. -/
def armBurst (s : State) : State :=
  let s1 := { emit .csAssert s with csActive := true }
  let s2 := { emit .rxSuppress s1 with rxSuppressed := true }
  let s3 := { s2 with armAddr := burstAddr s2.params, armLen := burstLen s2.params s2.cursor }
  let s4 := emit (.arm (platformAddr s3.params s3.armAddr) s3.armLen) s3
  { s4 with xfer := .busy, phase := .armed, wireSent := 0 }

/-- Steps 3 to 5 of the completion sequence and the cursor's reset, in their order (R82, R128): what plays
the part of the return from servicing (R111). -/
def releaseBurst (s : State) : State :=
  let s1 := { emit .rxRestore s with rxSuppressed := false }
  let s2 := { emit .csDeassert s1 with csActive := false }
  { s2 with xfer := .idle, phase := .armed, cursor := 1 }

end Sys2Proof.Machine
end

