-- ==== Sys2Proof/Machine/CompletionHandler.lean ====
section
/-! DEFINITION. The completion sequencer SEQ: ACK and FINALIZE with their enabling conditions, and SEQ acting
on its own (spec/42_completion_handler.md R81, R82, R89). A step that is not enabled is not taken: a turn
that names it passes (log 2). -/

namespace Sys2Proof.Machine

/-- ACK's enabling condition: `cpl_pending == 1`, in any state (R81). -/
def ackEnabled (s : State) : Bool := s.cplPending

/-- FINALIZE's enabling condition: `state == Busy and phase == DRAIN and tx_busy == 0` (R82). -/
def finalizeEnabled (s : State) : Bool :=
  decide (s.xfer = .busy) && decide (s.phase = .drain) && !s.txBusy

/-- ACK's effect (R81): acknowledge; in ARMED the drain wait begins, anywhere else the completion was
spurious. -/
def ackEffect (s : State) : State :=
  let s1 := ackLatch s
  match s1.xfer, s1.phase with
  | .busy, .armed => { s1 with phase := .drain }
  | _, _ => raise .spuriousCompletion s1

/-- The turn `#ACK` (R68, R81). -/
def ackStep (s : State) : State := if ackEnabled s then ackEffect s else s

/-- The turn `#FINALIZE` (R68, R82). -/
def finalizeStep (s : State) : State := if finalizeEnabled s then releaseBurst s else s

/-- SEQ on its own: it takes the one step that is enabled; where both are, which comes first is open
(R107), a free choice of the instance's stream. DESIGN CHOICE (log 21): only instances with different streams
choose unrelatedly. -/
def seqStep (s : State) : State :=
  match ackEnabled s, finalizeEnabled s with
  | true, true =>
    if Config.seqAcksFirst s.stream s.choices then ackEffect { s with choices := s.choices + 1 }
    else releaseBurst { s with choices := s.choices + 1 }
  | true, false => ackEffect s
  | false, true => releaseBurst s
  | false, false => s

end Sys2Proof.Machine
end

