-- ==== Sys2Proof/Machine/TransferBuffer.lean ====
section
/-! DEFINITION. The Transfer Buffer commands: BUF_RESET, APPEND, PREFIX, LENGTH
(spec/40_transfer_buffer.md). -/

namespace Sys2Proof.Machine

/-- BUF_RESET (R70). -/
def execBufReset (s : State) : Result :=
  whileIdle (fun s => .next (respond .ok 0x00000000#32 { s with cursor := 1 })) s

/-- APPEND (R71). -/
def execAppend (data : Word) (s : State) : Result :=
  whileIdle (fun s =>
    if s.cursor = s.params.capacity then .next (raise .bufferFull s)
    else andThen (storeCell (appendCell s) data s) fun s =>
      .next (respond .ok 0x00000000#32 { s with cursor := s.cursor + 1 })) s

/-- PREFIX (R72). -/
def execPrefix (data : Word) (s : State) : Result :=
  whileIdle (fun s =>
    andThen (storeCell prefixCellIndex data s) fun s => .next (respond .ok 0x00000000#32 s)) s

/-- LENGTH (R73): legal in every state. -/
def execLength (s : State) : Result := .next (respond .ok (lengthRead s) s)

end Sys2Proof.Machine
end

