-- ==== Sys2Proof/Machine/TransferController.lean ====
section
/-! DEFINITION. The Transfer Controller commands: START, IS_BUSY, READ_FAULTS and the reserved opcode
(spec/41_transfer_controller.md). -/

namespace Sys2Proof.Machine

/-- START (R75): the checks in the order of R107, then one burst armed. -/
def execStart (s : State) : Result :=
  whileIdle (fun s =>
    if s.cursor ≤ 1 then .next (raise .emptyTransfer s)
    else .next (respond .ok 0x00000000#32 (armBurst (clearStaleLatch s)))) s

/-- IS_BUSY (R76): legal in every state. -/
def execIsBusy (s : State) : Result := .next (respond .ok (statusRead s) s)

/-- READ_FAULTS (R77): legal in every state; the bits are not cleared. -/
def execReadFaults (s : State) : Result := .next (respond .ok (faultsRead s) s)

/-- RESERVED_000 (R78): executes as the Illegal exception, Idle or Busy. -/
def execReserved000 (s : State) : Result := .next (raise .illegal s)

end Sys2Proof.Machine
end

