-- ==== Sys2Proof/Machine/Dispatch.lean ====
section
/-! DEFINITION. `exec`: one arm per command, each one direct call of its meaning (spec/30_encoding.md R62). -/

namespace Sys2Proof.Machine

def exec (i : Instr) (s : State) : Host.Outcome State Fault Refusal :=
  match i with
  | .reserved000 => Sys2Proof.Machine.execReserved000 s
  | .bufReset => Sys2Proof.Machine.execBufReset s
  | .append data => Sys2Proof.Machine.execAppend data s
  | .prefixCell data => Sys2Proof.Machine.execPrefix data s
  | .start => Sys2Proof.Machine.execStart s
  | .isBusy => Sys2Proof.Machine.execIsBusy s
  | .length => Sys2Proof.Machine.execLength s
  | .readFaults => Sys2Proof.Machine.execReadFaults s

end Sys2Proof.Machine
end

