-- ==== Sys2Proof/Machine/Platform.lean ====
section
/-! DEFINITION. PLATFORM's moves at the engine's boundary: COMPLETE (spec/42_completion_handler.md R80), the
burst's bytes (R84), the level of `tx_busy` (R86), and the hardware reset
(spec/70_reset_and_hazards.md R120, R121). -/

namespace Sys2Proof.Machine

/-- COMPLETE (R80): PLATFORM may raise it at any time; a second event while the latch is set merges. -/
def completeStep (s : State) : State := { emit .complete s with cplPending := true }

/-- A byte of the armed burst is still to be sent: "after the ARM event and before it raises COMPLETE"
(R84). While Busy in ARMED the latch is 0 exactly until COMPLETE is raised (R31, R75). -/
def wireEnabled (s : State) : Bool :=
  decide (s.xfer = .busy) && decide (s.phase = .armed) && !s.cplPending
    && decide (s.wireSent < s.armLen)

/-- One WIRE event: the next byte of `MemRead(arm_addr, arm_len)`, in increasing address order (R84). -/
def wireStep (s : State) : Result :=
  if wireEnabled s then
    let a := s.armAddr + s.wireSent
    if a < bufferBytes s.params then
      let s1 := emit (.wire (Memory.burstByte s.mem a s.stream s.draws)) s
      .next { s1 with wireSent := s.wireSent + 1, draws := s.draws + 1 }
    else .fault (.outsideBuffer a)
  else .next s

/-- PLATFORM drives `tx_busy` (R32, R86). -/
def txBusyStep (level : Bool) (s : State) : State := { s with txBusy := level }

/-- A hardware reset after power-on (R120, R121): every element at its reset value, no cell with a value,
HW_RESET appended to the trace and no other event. The inputs still to come, the level of `tx_busy`, the
model's counters and its stream are not engine state and stay (log 15). -/
def hwResetStep (s : State) : State :=
  { State.powerOn s.params s.stream with
    txBusy := s.txBusy
    turns := s.turns
    trace := s.trace ++ [.hwReset]
    draws := s.draws
    choices := s.choices }

end Sys2Proof.Machine
end

