-- ==== Sys2Proof/Machine/Agents.lean ====
section
/-! DEFINITION. One turn of one agent (spec/20_memory.md R50): a command of PRODUCER, a step of SEQ, a move of
PLATFORM. -/

namespace Sys2Proof.Machine

/-- POLL_IDLE's branch, `if rsp_data != 0 goto L` (R67): the loop goes round again. -/
def pollAgain (s : State) : Bool :=
  match s.rsp with
  | some r => decide (r.data ≠ 0#32)
  | none => false

/-- A move of PRODUCER: nothing of PRODUCER's may overtake its own loop (R26, R50). -/
def Turn.isProducer : Turn → Bool
  | .command _ | .pollIdle => true
  | .seq | .ack | .finalize | .wire | .complete | .txBusy _ | .hwReset => false

/-- The order of turns after a pass of POLL_IDLE that found the engine Busy: another agent moves once, then
the loop's next pass. The move is the next one placed, or SEQ's own where the next is PRODUCER's or there is
none (DESIGN CHOICE, log 16). -/
def pollRound : List Turn → List Turn
  | [] => [.seq, .pollIdle]
  | t :: rest =>
    if t.isProducer then .seq :: .pollIdle :: t :: rest else t :: .pollIdle :: rest

/-- One pass of POLL_IDLE (R67): IS_BUSY, then the branch. -/
def pollStep (s : State) : Result :=
  andThen (exec .isBusy s) fun s' =>
    .next (if pollAgain s' then { s' with turns := pollRound s'.turns } else s')

/-- The command at the head of the command port, decoded and executed (R26, R60). -/
def commandStep (cmd : CmdWord) (s : State) : Result := exec (decodeCommand cmd) s

/-- The effect of one turn. -/
def runTurn (t : Turn) (s : State) : Result :=
  match t with
  | .command cmd => commandStep cmd s
  | .pollIdle => pollStep s
  | .seq => .next (seqStep s)
  | .ack => .next (ackStep s)
  | .finalize => .next (finalizeStep s)
  | .wire => wireStep s
  | .complete => .next (completeStep s)
  | .txBusy level => .next (txBusyStep level s)
  | .hwReset => .next (hwResetStep s)

/-- The turn taken next and the state in which it is taken: it is removed from the list, and the last step's
response, which is not stored, is gone (R61). With nothing placed SEQ acts on its own (R89, log 1). -/
def nextTurn (s : State) : Turn × State :=
  match s.turns with
  | [] => (.seq, { s with rsp := none })
  | t :: rest => (t, { s with turns := rest, rsp := none })

end Sys2Proof.Machine
end

