-- ==== Sys2Proof/Machine/Step.lean ====
section
/-! DEFINITION. One atomic step of the engine (spec/20_memory.md R50), and placing a command where the next
step takes it. -/

namespace Sys2Proof.Machine

/-- One step: the next agent's turn. -/
def step (s : State) : Host.Outcome State Fault Refusal := runTurn (nextTurn s).1 (nextTurn s).2

/-- `s` with PRODUCER presenting the command word `w` (its low `nbits` bits; the port has 35 wires) as the
very next turn (log 3, log 18). -/
def State.withFetchWord (s : State) (nbits w : Nat) : State :=
  { s with turns := .command (BitVec.ofNat 35 (w % 2 ^ nbits)) :: s.turns }

end Sys2Proof.Machine
end

