-- ==== Sys2Proof/Machine/Instances.lean ====
section
/-! DEFINITION. Several engine instances side by side (spec/00_scope.md R14, spec/60_exceptions.md R115): one
State each, nothing shared. -/

namespace Sys2Proof.Machine

/-- Instances with the parameters `ps`, all right after power-on, each with a stream of free values of its own
(DESIGN CHOICE, log 21: the stream is the instance's place in the list). -/
def powerOnInstances (ps : List Config.Params) : List State :=
  ps.zipIdx.map fun pk => State.powerOn pk.1 pk.2

/-- Instance `k` takes one step; an index that names no instance changes nothing (DESIGN CHOICE, log 19). Free
draws go by the stream that each State holds: of instances that hold one stream number, the draws at equal
counts are equal, which the spec does not say (DESIGN CHOICE, log 21). -/
def stepInstance (k : Nat) (sys : List State) : Host.Outcome (List State) Fault Refusal :=
  match sys[k]? with
  | none => .next sys
  | some s =>
    match step s with
    | .next s' => .next (sys.set k s')
    | .fault f => .fault f
    | .refused r => .refused r

end Sys2Proof.Machine
end

