-- ==== Sys2Proof/Safety.lean ====
section
/-! DEFINITION. What counts as a safe state and a safe run, in the terms the statements use: the invariants of
spec/10_state.md R35, the trace's framing (spec/42_completion_handler.md R90, R92), the duties of the outside
parties (R84–R88) and the hang of spec/60_exceptions.md R106. -/

namespace Sys2Proof.Machine

/-- `k` steps one after another, ending at the first stop. -/
def runSteps : Nat → State → Result
  | 0, s => .next s
  | k + 1, s => andThen (step s) (runSteps k)

/-- The engine's invariants: R35 (a) to (c), the widths of R13 and R30, the buffer's canonical form inside its
byte space (R42), whole cells (R47), and R21's "Cells 1 .. cursor−1 are always written". -/
structure Inv (s : State) : Prop where
  params : s.params.wf
  memWf : Memory.wf s.mem
  memInside : ∀ c ∈ s.mem, c.1 < bufferBytes s.params
  wholeCells : ∀ c ∈ s.mem, ∀ k < 4, (Memory.read s.mem (laneAddr (c.1 / 4) k)).isSome
  payloadWritten : ∀ i < s.cursor, 1 ≤ i → (Memory.readCell s.mem i).isSome
  cursorRange : 1 ≤ s.cursor ∧ s.cursor ≤ s.params.capacity
  latchWidths : s.armAddr < 2 ^ s.params.latchBits ∧ s.armLen < 2 ^ s.params.latchBits
  idle : s.xfer = .idle → s.csActive = false ∧ s.rxSuppressed = false ∧ s.phase = .armed
  busy : s.xfer = .busy → s.csActive = true ∧ s.rxSuppressed = true ∧ 2 ≤ s.cursor ∧
    s.armAddr = burstAddr s.params ∧ s.armLen = burstLen s.params s.cursor
  wireProgress : s.xfer = .busy → s.wireSent ≤ s.armLen

/-- Where a trace stands within a frame (R90, R127, R128). -/
inductive Frame where
  /-- Chip-select is not asserted. -/
  | idle
  /-- CS_ASSERT seen. -/
  | selected
  /-- RX_SUPPRESS seen. -/
  | suppressed
  /-- ARM seen, the completion not yet acknowledged. -/
  | armed
  /-- CPL_ACK seen: the drain wait. -/
  | drain
  /-- RX_RESTORE seen. -/
  | restored
deriving DecidableEq, Repr

/-- The order of R90: CS_ASSERT, RX_SUPPRESS, ARM, then WIRE bytes, then CPL_ACK, then RX_RESTORE, CS_DEASSERT.
COMPLETE may come at any time (R80); outside ARMED a CPL_ACK answers a spurious completion (R105) and keeps
the place; HW_RESET abandons the frame (R121). Any other event is out of order. -/
def Frame.next (f : Frame) (e : Event) : Option Frame :=
  match e, f with
  | .complete, f => some f
  | .hwReset, _ => some .idle
  | .csAssert, .idle => some .selected
  | .rxSuppress, .selected => some .suppressed
  | .arm _ _, .suppressed => some .armed
  | .wire _, .armed => some .armed
  | .cplAck, .idle => some .idle
  | .cplAck, .armed => some .drain
  | .cplAck, .drain => some .drain
  | .rxRestore, .drain => some .restored
  | .csDeassert, .restored => some .idle
  | _, _ => none

/-- Reading on through a list of events; none once one is out of order. -/
def Frame.after : Option Frame → List Event → Option Frame
  | none, _ => none
  | some f, [] => some f
  | some f, e :: es => Frame.after (f.next e) es

/-- Where the whole trace stands. -/
def frameOf (t : List Event) : Option Frame := Frame.after (some .idle) t

/-- Where the engine's control point (R26) says the trace stands. -/
def State.frame (s : State) : Frame :=
  match s.xfer, s.phase with
  | .idle, _ => .idle
  | .busy, .armed => .armed
  | .busy, .drain => .drain

/-- The trace is in order and stands where the engine stands. -/
def Framed (s : State) : Prop := frameOf s.trace = some s.frame

/-- No programming error and no platform fault has been recorded (R33, R116). -/
def FaultFree (s : State) : Prop := s.faults = ⟨false, false, false⟩

/-- A latched completion belongs to the armed, unacknowledged burst (R105). -/
def LatchOwned (s : State) : Prop := s.cplPending = true → s.xfer = .busy ∧ s.phase = .armed

/-- A byte of the armed burst has still to be handed to the peripheral (R84, R85). -/
def bytesLeft (s : State) : Bool := decide (s.xfer = .busy) && decide (s.wireSent < s.armLen)

/-- PLATFORM's duties R84 to R86, move by move: the moves that R88 gives a correct platform. `shifts` says
whether the peripheral shifts bits independently of the DMA feed (R32).
R84 is what `wireStep` does. R85: COMPLETE comes exactly once after each ARM, after the last WIRE byte of that
burst, and at no other time. R86: a peripheral that shifts independently shows tx_busy = 1 while bits of the
burst are still to leave: it has risen when a byte goes out, it rises only while Busy with bytes left, it does
not fall while bytes are left, and once fallen it stays 0 until the next burst; any other peripheral leaves
tx_busy at 0. DEDUCED, DESIGN CHOICE (log 22): ARM and the rise of tx_busy are two atomic steps,
so the level may still be 0 between them; a level that stands and is allowed may be driven again; a hardware
reset is always a move. That tx_busy eventually falls is no move (log 20). -/
def dutiful (shifts : Bool) (t : Turn) (s : State) : Bool :=
  match t with
  | .complete =>
    decide (s.xfer = .busy) && decide (s.phase = .armed) && !s.cplPending
      && decide (s.wireSent = s.armLen)
  | .wire => !wireEnabled s || !shifts || s.txBusy
  | .txBusy true => shifts && decide (s.xfer = .busy) && (bytesLeft s || s.txBusy)
  | .txBusy false => !(bytesLeft s && s.txBusy)
  | .command _ | .pollIdle | .seq | .ack | .finalize | .hwReset => true

/-- What R85 and R86 keep true of the engine while PLATFORM keeps them: a completion is signalled and the drain
entered only once the whole burst is on the wire; tx_busy shows 1 in the middle of a burst where the peripheral
shifts independently, and never where it does not. -/
structure OnDuty (shifts : Bool) (s : State) : Prop where
  wholeBurst : s.xfer = .busy → s.cplPending = true ∨ s.phase = .drain → s.wireSent = s.armLen
  shiftingShown : shifts = true → 0 < s.wireSent → bytesLeft s = true → s.txBusy = true
  tiedLow : shifts = false → s.txBusy = false

/-- PRODUCER's duty (R88, R124): no BUF_RESET, APPEND, PREFIX or START while Busy; and no reserved opcode. -/
def polite (t : Turn) (s : State) : Bool :=
  match t with
  | .command cmd =>
    match decodeCommand cmd with
    | .reserved000 => false
    | .bufReset | .append _ | .prefixCell _ | .start => decide (s.xfer = .idle)
    | .isBusy | .length | .readFaults => true
  | .pollIdle | .seq | .ack | .finalize | .wire | .complete | .txBusy _ | .hwReset => true

/-- FINALIZE is held in DRAIN by a peripheral that has not reported "not busy" (R82, R106). -/
def Draining (s : State) : Prop := s.xfer = .busy ∧ s.phase = .drain ∧ s.txBusy = true

/-- The turn can end a drain wait: tx_busy falls, or the hardware is reset (R82, R106, R121). -/
def Turn.endsDrain : Turn → Bool
  | .txBusy false | .hwReset => true
  | .command _ | .pollIdle | .seq | .ack | .finalize | .wire | .complete | .txBusy true => false

/-- SEQ has nothing left to do in DRAIN but wait for a peripheral that has not reported "not busy" (R82, R106). -/
def DrainHolds (s : State) : Prop :=
  s.xfer = .busy ∧ s.phase = .drain ∧ s.txBusy = true ∧ s.cplPending = false

/-- Boot requirement (3) of R123: when P > 0 the prefix cell has been written. -/
def BootReady (s : State) : Prop :=
  0 < s.params.prefixBytes → (Memory.readCell s.mem prefixCellIndex).isSome

end Sys2Proof.Machine
end

