-- ==== Sys2Proof/Certificates/Slice0/Obligations.lean ====
section
/-! DEFINITION. The statements for the provers. Each docstring names the rule of spec/ it formalises; where a
clause is the model's own choice it says so and names the log entry. -/

open Sys2Proof Sys2Proof.Machine

/-! ## Reset -/

/-- R120, the elements the spec gives a value, of a power-on reset of any instance: and no cell of W holds a
value (R21). -/
def Obligations.PowerOnLeavesTheStatedValues : Prop :=
  ∀ (p : Config.Params) (k : Nat),
    (State.powerOn p k).cursor = 1 ∧ (State.powerOn p k).xfer = .idle ∧
    (State.powerOn p k).phase = .armed ∧ (State.powerOn p k).csActive = false ∧
    (State.powerOn p k).rxSuppressed = false ∧ (State.powerOn p k).cplPending = false ∧
    (State.powerOn p k).faults = ⟨false, false, false⟩ ∧
    (∀ a, Memory.read (State.powerOn p k).mem a = none) ∧ (State.powerOn p k).trace = []

/-- R121 with R120: a later hardware reset, in any state, appends HW_RESET and no other event, puts the
elements at their reset values, leaves no cell with a value, and so abandons a transfer in flight; a late
COMPLETE that ACK then takes is a SpuriousCompletion. -/
def Obligations.HardwareResetAbandonsTransfer : Prop :=
  ∀ s : State, ∃ t, runTurn .hwReset s = .next t ∧ t.trace = s.trace ++ [.hwReset] ∧
    t.cursor = 1 ∧ t.xfer = .idle ∧ t.phase = .armed ∧ t.csActive = false ∧
    t.rxSuppressed = false ∧ t.cplPending = false ∧ t.faults = ⟨false, false, false⟩ ∧
    (∀ a, Memory.read t.mem a = none) ∧ t.params = s.params ∧
    ∃ u v, runTurn .complete t = .next u ∧ runTurn .ack u = .next v ∧
      v = { t with faults := ⟨false, true, false⟩
                   trace := s.trace ++ [.hwReset, .complete, .cplAck] }

/-! ## Encoding -/

/-- R60 to R62: words written out from the opcode map and the vectors of 95_test_vectors.md. -/
def Obligations.DecodesTheWordsOfTheOpcodeMap : Prop :=
  decodeCommand 0x012345678#35 = .reserved000 ∧ decodeCommand 0x1DEADBEEF#35 = .bufReset ∧
  decodeCommand 0x211223344#35 = .append 0x11223344#32 ∧
  decodeCommand 0x3AABBCC00#35 = .prefixCell 0xAABBCC00#32 ∧ decodeCommand 0x400000000#35 = .start ∧
  decodeCommand 0x500000000#35 = .isBusy ∧ decodeCommand 0x600000000#35 = .length ∧
  decodeCommand 0x700000000#35 = .readFaults

/-- R60, R62, R63: decoding is encoding's inverse, on every command with every operand; and in the other
direction a word is its command's encoding but for the data field of a command that takes none. -/
def Obligations.DecodeAndEncodeAgree : Prop :=
  (∀ i : Instr, decodeCommand (encode i) = i) ∧
  ∀ w : CmdWord, opField w = opOf (decodeCommand w) ∧
    encode (decodeCommand w) = opField w ++ operandOf (decodeCommand w) ∧
    (operandOf (decodeCommand w) = dataField w →  encode (decodeCommand w) = w)

/-- R62: "The table is complete: all eight values of `op` are listed", each once, with match `op << 32` and mask
`0x700000000`; so every word is selected by exactly one row, the row of the command it decodes to. -/
def Obligations.EveryWordSelectsExactlyItsRow : Prop :=
  opTable.Nodup ∧
  (∀ r ∈ opTable, r.mask = 0x700000000#35) ∧
  (∀ op : BitVec 3, ∃ r ∈ opTable, r.bits = op ++ 0#32) ∧
  ∀ w : CmdWord,
    (∃ r ∈ opTable, r.selects w = true ∧ r.mnemonic = mnemonicOf (decodeCommand w) ∧
      ∀ r' ∈ opTable, r'.selects w = true → r' = r) ∧
    ∀ r ∈ opTable, r.selects w = true ↔ r.mnemonic = mnemonicOf (decodeCommand w)

/-- R63: commands other than APPEND and PREFIX ignore `data`: any value there selects the same command. -/
def Obligations.DataIgnoredByCommandsThatTakeNone : Prop :=
  ∀ w w' : CmdWord, opField w = opField w' → opField w ≠ 0b010#3 → opField w ≠ 0b011#3 →
    decodeCommand w = decodeCommand w'

/-- R60, R65: a number that is a 35-bit word decodes to that word's command. That a number with a bit above bit
34 is refused, and the name widerThanCommand, are the model's choice (log 18): the spec gives such a number no
meaning and no refusal. -/
def Obligations.OnlyThirtyFiveBitWordsDecode : Prop :=
  ∀ n : Nat, (n < 2 ^ 35 → decodeBits n = .ok (decodeCommand (BitVec.ofNat 35 n))) ∧
    (2 ^ 35 ≤ n → decodeBits n = .error .widerThanCommand)

/-- R66: every well-formed assembler line assembles, to a word that decodes to the line's command; an ill-formed
line does not assemble. -/
def Obligations.AssembledLinesDecodeToTheirCommand : Prop :=
  ∀ l : AsmLine, (l.wf = true → ∃ w, l.assemble = some w ∧ decodeCommand w = l.toInstr) ∧
    (l.wf = false → l.assemble = none)

/-! ## The step -/

/-- R26, R50, R61: when PRODUCER's turn comes, the step is `exec` of the decoded command, with the turn removed
and the last response gone. (The list of turns is the model's, log 1; the response's life, log 4.) -/
def Obligations.StepExecutesThePresentedCommand : Prop :=
  ∀ (s : State) (w : CmdWord) (rest : List Turn), s.turns = .command w :: rest →
    step s = exec (decodeCommand w) { s with turns := rest, rsp := none }

/-- R50: the turn placed first is the step's, whichever agent's it is; with nothing placed SEQ acts on its own.
(The list of turns is the model's, log 1; the response's life, log 4.) -/
def Obligations.StepTakesThePlacedTurn : Prop :=
  ∀ s : State,
    (∀ (t : Turn) (rest : List Turn), s.turns = t :: rest →
      step s = runTurn t { s with turns := rest, rsp := none }) ∧
    (s.turns = [] → step s = runTurn .seq { s with rsp := none })

/-- The model's placing of a command (log 3): the very next step executes it. -/
def Obligations.PlacedCommandIsExecutedNext : Prop :=
  ∀ (s : State) (w : CmdWord), step (s.withFetchWord 35 w.toNat) =
      exec (decodeCommand w) { s with rsp := none } ∧
    decodeTableWord 35 w.toNat = some (decodeCommand w)

/-- R14, R115: a step of one instance leaves every other instance as it was. (The list of instances is the
model's, log 19.) -/
def Obligations.OneInstancesStepLeavesOthersAlone : Prop :=
  ∀ (k : Nat) (sys sys' : List State), stepInstance k sys = .next sys' →
    sys'.length = sys.length ∧ ∀ j, j ≠ k → sys'[j]? = sys[j]?

/-! ## The Transfer Buffer commands -/

/-- R70. -/
def Obligations.BufResetSetsCursorToOne : Prop :=
  (∀ w : CmdWord, opField w = 0b001#3 → decodeCommand w = .bufReset) ∧
  ∀ s : State,
    (s.xfer = .idle →
      exec .bufReset s = .next { s with cursor := 1, rsp := some ⟨.ok, 0#32⟩ }) ∧
    (s.xfer = .busy →
      exec .bufReset s = .next { s with
        faults := { s.faults with conc := s.faults.conc || s.params.debugAssert }
        rsp := some ⟨.concurrentAccess, 0#32⟩ })

/-- R71: the word is stored at the cursor and the cursor advances; a full buffer, and Busy before that, refuse. -/
def Obligations.AppendStoresAtCursorAndAdvances : Prop :=
  (∀ w : CmdWord, opField w = 0b010#3 → decodeCommand w = .append (dataField w)) ∧
  ∀ (s : State) (d : Word),
    (s.xfer = .idle → s.cursor < s.params.capacity →
      ∃ t, exec (.append d) s = .next t ∧ Memory.readCell t.mem s.cursor = some d ∧
        (∀ i, i ≠ s.cursor → Memory.readCell t.mem i = Memory.readCell s.mem i) ∧
        (∀ a, a < 4 * s.cursor ∨ 4 * s.cursor + 4 ≤ a →
          Memory.read t.mem a = Memory.read s.mem a) ∧
        t = { s with mem := t.mem, cursor := s.cursor + 1, rsp := some ⟨.ok, 0#32⟩ }) ∧
    (s.xfer = .idle → s.cursor = s.params.capacity →
      exec (.append d) s = .next { s with rsp := some ⟨.bufferFull, 0#32⟩ }) ∧
    (s.xfer = .busy →
      exec (.append d) s = .next { s with
        faults := { s.faults with conc := s.faults.conc || s.params.debugAssert }
        rsp := some ⟨.concurrentAccess, 0#32⟩ })

/-- R72: the word is stored in cell 0 and nothing else changes; Busy refuses. -/
def Obligations.PrefixWritesCellZero : Prop :=
  (∀ w : CmdWord, opField w = 0b011#3 → decodeCommand w = .prefixCell (dataField w)) ∧
  ∀ (s : State) (d : Word), s.params.wf →
    (s.xfer = .idle →
      ∃ t, exec (.prefixCell d) s = .next t ∧ Memory.readCell t.mem 0 = some d ∧
        (∀ i, i ≠ 0 → Memory.readCell t.mem i = Memory.readCell s.mem i) ∧
        (∀ a, 4 ≤ a → Memory.read t.mem a = Memory.read s.mem a) ∧
        t = { s with mem := t.mem, rsp := some ⟨.ok, 0#32⟩ }) ∧
    (s.xfer = .busy →
      exec (.prefixCell d) s = .next { s with
        faults := { s.faults with conc := s.faults.conc || s.params.debugAssert }
        rsp := some ⟨.concurrentAccess, 0#32⟩ })

/-- R73: LENGTH answers in every state, Idle or Busy, with the payload length, which is never cut. -/
def Obligations.LengthAnswersThePayloadBytes : Prop :=
  (∀ w : CmdWord, opField w = 0b110#3 → decodeCommand w = .length) ∧
  ∀ s : State, s.params.wf → s.cursor ≤ s.params.capacity →
    ∃ d : Word, exec .length s = .next { s with rsp := some ⟨.ok, d⟩ } ∧
      d.toNat = (if s.cursor ≤ 1 then 0 else 4 * (s.cursor - 1)) ∧
      d.toNat ≤ 4 * (s.params.capacity - 1)

/-- R74, both laws of the source: n appends from cursor 1, then LENGTH, gives 4n and the words stand in cells
1 .. n; BUF_RESET then LENGTH gives 0; and an APPEND not answered OK changes neither cursor nor W. -/
def Obligations.LengthAfterAppendsIsFourTimesTheirNumber : Prop :=
  (∀ (s : State) (ds : List Word) (rest : List Turn), s.params.wf → s.xfer = .idle → s.cursor = 1 →
    ds.length ≤ s.params.capacity - 1 →
    s.turns = ds.map (fun d => .command (encode (.append d))) ++ .command (encode .length) :: rest →
    ∃ t, runSteps (ds.length + 1) s = .next t ∧
      t.rsp = some ⟨.ok, BitVec.ofNat 32 (4 * ds.length)⟩ ∧ t.cursor = ds.length + 1 ∧
      t.turns = rest ∧ t.xfer = .idle ∧
      ∀ j (hj : j < ds.length), Memory.readCell t.mem (1 + j) = some ds[j]) ∧
  (∀ (s : State) (rest : List Turn), s.params.wf → s.xfer = .idle →
    s.turns = .command (encode .bufReset) :: .command (encode .length) :: rest →
    ∃ t, runSteps 2 s = .next t ∧ t.rsp = some ⟨.ok, 0#32⟩) ∧
  (∀ (s t : State) (d : Word), exec (.append d) s = .next t → t.rsp ≠ some ⟨.ok, 0#32⟩ →
    t.cursor = s.cursor ∧ t.mem = s.mem)

/-! ## The Transfer Controller commands -/

/-- R75 (its effects; R103 and R107 (4) with it): the checks, the stale latch, then chip-select, receive, ARM and
Busy in their order. The clause `wireSent := 0`, PLATFORM's progress on the new burst, is the model's own
(DESIGN CHOICE, log 10), no clause of R75. -/
def Obligations.StartArmsOneBurst : Prop :=
  (∀ w : CmdWord, opField w = 0b100#3 → decodeCommand w = .start) ∧
  ∀ s : State,
    (s.xfer = .idle → 2 ≤ s.cursor →
      exec .start s = .next { s with
        csActive := true, rxSuppressed := true
        armAddr := 4 - s.params.prefixBytes
        armLen := 4 * (s.cursor - 1) + s.params.prefixBytes
        xfer := .busy, phase := .armed, wireSent := 0
        cplPending := false
        faults := { s.faults with spurious := s.faults.spurious || s.cplPending }
        trace := s.trace ++ (if s.cplPending then [.cplAck] else []) ++
          [.csAssert, .rxSuppress,
            .arm (s.params.bufferBase + (4 - s.params.prefixBytes))
              (4 * (s.cursor - 1) + s.params.prefixBytes)]
        rsp := some ⟨.ok, 0#32⟩ }) ∧
    (s.xfer = .idle → s.cursor ≤ 1 → exec .start s = .next { s with rsp := some ⟨.ok, 0#32⟩ }) ∧
    (s.xfer = .busy →
      exec .start s = .next { s with
        faults := { s.faults with conc := s.faults.conc || s.params.debugAssert }
        rsp := some ⟨.concurrentAccess, 0#32⟩ })

/-- R76, R23: IS_BUSY answers in every state, BUSY_SENTINEL while Busy in either phase and 0x00 while Idle. -/
def Obligations.IsBusyAnswersTheBusyByte : Prop :=
  (∀ w : CmdWord, opField w = 0b101#3 → decodeCommand w = .isBusy) ∧
  ∀ s : State, ∃ d : Word, exec .isBusy s = .next { s with rsp := some ⟨.ok, d⟩ } ∧
    (s.xfer = .idle → d = 0#32) ∧
    (s.xfer = .busy → d.extractLsb' 0 8 = s.params.busySentinel ∧ d.toNat < 2 ^ 8) ∧
    (s.params.wf → (d = 0#32 ↔ s.xfer = .idle))

/-- R77: READ_FAULTS answers in every state with the three sticky bits in their places and zeros above, and does
not clear them. -/
def Obligations.ReadFaultsAnswersTheStickyBits : Prop :=
  (∀ w : CmdWord, opField w = 0b111#3 → decodeCommand w = .readFaults) ∧
  ∀ s : State, ∃ d : Word, exec .readFaults s = .next { s with rsp := some ⟨.ok, d⟩ } ∧
    d.getLsbD 0 = s.faults.conc ∧ d.getLsbD 1 = s.faults.spurious ∧ d.getLsbD 2 = s.faults.illegal ∧
    ∀ k, 3 ≤ k → d.getLsbD k = false

/-- R78, R104: the reserved opcode, whatever its data and in Idle and Busy alike, takes the Illegal exception:
(ILLEGAL, 0), FAULT.illegal set, nothing else. -/
def Obligations.ReservedOpcodeTakesIllegal : Prop :=
  (∀ w : CmdWord, opField w = 0b000#3 → decodeCommand w = .reserved000) ∧
  ∀ s : State,
    exec .reserved000 s = .next { s with
      faults := { s.faults with illegal := true }, rsp := some ⟨.illegal, 0#32⟩ }

/-! ## Exceptions -/

/-- R102: BUF_RESET, APPEND, PREFIX and START while Busy, whatever the cursor (R107), respond
(CONCURRENT_ACCESS, 0) and change FAULT.conc alone, and that only when DEBUG_ASSERT is true. -/
def Obligations.BusyRefusesMutatingCommands : Prop :=
  ∀ (s : State) (i : Instr), s.xfer = .busy →
    (i = .bufReset ∨ i = .start ∨ (∃ d, i = .append d) ∨ (∃ d, i = .prefixCell d)) →
    exec i s = .next { s with
      faults := { s.faults with conc := s.faults.conc || s.params.debugAssert }
      rsp := some ⟨.concurrentAccess, 0#32⟩ } ∧
    (s.params.debugAssert = false →
      exec i s = .next { s with rsp := some ⟨.concurrentAccess, 0#32⟩ })

/-- R101: BufferFull leaves W, cursor, state and FAULT unchanged. -/
def Obligations.BufferFullChangesNothing : Prop :=
  ∀ (s : State) (d : Word), s.xfer = .idle → s.cursor = s.params.capacity →
    exec (.append d) s = .next { s with rsp := some ⟨.bufferFull, 0#32⟩ }

/-- R103: EmptyTransfer responds (OK, 0), emits no event and changes no state, the latch included. -/
def Obligations.EmptyStartChangesNothing : Prop :=
  ∀ s : State, s.xfer = .idle → s.cursor ≤ 1 →
    exec .start s = .next { s with rsp := some ⟨.ok, 0#32⟩ }

/-- R33: only a hardware reset clears a FAULT bit. -/
def Obligations.FaultBitsAreSticky : Prop :=
  ∀ s t : State, step s = .next t → s.turns.head? ≠ some .hwReset →
    (s.faults.conc = true → t.faults.conc = true) ∧
    (s.faults.spurious = true → t.faults.spurious = true) ∧
    (s.faults.illegal = true → t.faults.illegal = true)

/-! ## Frames -/

/-- The frame of the commands that store to no cell, in every form: every byte of W reads as before, and beside
the response each element changes only in the command whose rule writes it (R70, R73, R75 to R78, R102). -/
def Obligations.FrameOfCommandsThatStoreNothing : Prop :=
  ∀ (s t : State) (i : Instr),
    i = .reserved000 ∨ i = .bufReset ∨ i = .start ∨ i = .isBusy ∨ i = .length ∨ i = .readFaults →
    exec i s = .next t →
    (∀ a, Memory.read t.mem a = Memory.read s.mem a) ∧
    t.params = s.params ∧ t.txBusy = s.txBusy ∧ t.turns = s.turns ∧
    t.draws = s.draws ∧ t.choices = s.choices ∧ t.stream = s.stream ∧
    (i ≠ .bufReset → t.cursor = s.cursor) ∧
    (i ≠ .start → t.xfer = s.xfer ∧ t.phase = s.phase ∧ t.csActive = s.csActive ∧
      t.rxSuppressed = s.rxSuppressed ∧ t.armAddr = s.armAddr ∧ t.armLen = s.armLen ∧
      t.cplPending = s.cplPending ∧ t.trace = s.trace ∧ t.wireSent = s.wireSent ∧
      t.faults.spurious = s.faults.spurious) ∧
    (i ≠ .reserved000 → t.faults.illegal = s.faults.illegal) ∧
    (i ≠ .bufReset → i ≠ .start → t.faults.conc = s.faults.conc)

/-- The frame of APPEND and PREFIX, in every form: only the four bytes of the cell the command's rule names can
change, and beside the response only APPEND's cursor and FAULT.conc. The forms that store nothing (Busy; APPEND
to a full buffer) leave every byte and the cursor as they were. -/
def Obligations.FrameOfStoringCommands : Prop :=
  ∀ (s t : State) (d : Word),
    (exec (.append d) s = .next t →
      (∀ a, a < laneAddr (appendCell s) 0 ∨ laneAddr (appendCell s) 0 + 4 ≤ a →
        Memory.read t.mem a = Memory.read s.mem a) ∧
      (s.xfer = .busy ∨ s.cursor = s.params.capacity →
        (∀ a, Memory.read t.mem a = Memory.read s.mem a) ∧ t.cursor = s.cursor) ∧
      (s.xfer = .idle → t.faults = s.faults) ∧
      t = { s with mem := t.mem, cursor := t.cursor, rsp := t.rsp
                   faults := { s.faults with conc := t.faults.conc } }) ∧
    (exec (.prefixCell d) s = .next t →
      (∀ a, a < laneAddr prefixCellIndex 0 ∨ laneAddr prefixCellIndex 0 + 4 ≤ a →
        Memory.read t.mem a = Memory.read s.mem a) ∧
      (s.xfer = .busy → ∀ a, Memory.read t.mem a = Memory.read s.mem a) ∧
      (s.xfer = .idle → t.faults = s.faults) ∧
      t = { s with mem := t.mem, rsp := t.rsp
                   faults := { s.faults with conc := t.faults.conc } })

/-! ## The buffer's bytes -/

/-- R41, R43: a stored cell reads back lane by lane, least significant byte first, and whole; no other byte
changes; the canonical form is kept. -/
def Obligations.StoredCellReadsBackLittleEndian : Prop :=
  ∀ (m : Memory) (i : Nat) (v : Word),
    (∀ k < 4, Memory.read (Memory.writeCell m i v) (4 * i + k) = some (v.extractLsb' (8 * k) 8)) ∧
    Memory.readCell (Memory.writeCell m i v) i = some v ∧
    (∀ a, a < 4 * i ∨ 4 * i + 4 ≤ a →
      Memory.read (Memory.writeCell m i v) a = Memory.read m a) ∧
    (Memory.wf m → Memory.wf (Memory.writeCell m i v))

/-- R45, R42: the burst region ends at byte 4·cursor − 1 and lies inside the byte space; with P = 3 it starts at
byte 1 with length 4·cursor − 1. -/
def Obligations.BurstRegionLiesInsideTheBuffer : Prop :=
  ∀ (p : Config.Params) (c : Nat), p.wf → 1 ≤ c → c ≤ p.capacity →
    burstAddr p = 4 - p.prefixBytes ∧ burstLen p c = 4 * (c - 1) + p.prefixBytes ∧
    burstAddr p + burstLen p c = 4 * c ∧ burstAddr p + burstLen p c ≤ bufferBytes p ∧
    (p.prefixBytes = 3 → burstAddr p = 1 ∧ burstLen p c = 4 * c - 1)

/-- R91, R123 (3): once the prefix is written, every byte of the burst is a byte of the buffer; no free draw is
in it. -/
def Obligations.BootedBurstHoldsNoFreeByte : Prop :=
  ∀ s : State, Inv s → BootReady s →
    (memRead s (burstAddr s.params) (burstLen s.params s.cursor)).map some =
      (List.range (burstLen s.params s.cursor)).map fun j =>
        Memory.read s.mem (burstAddr s.params + j)

/-! ## The completion sequence and PLATFORM -/

/-- R80: COMPLETE, in any state, is recorded and latched, and changes nothing else; while the latch is set the
event merges. -/
def Obligations.CompletionEventIsLatched : Prop :=
  ∀ s : State, runTurn .complete s =
    .next { s with trace := s.trace ++ [.complete], cplPending := true }

/-- R81: ACK, enabled by a latched completion: in ARMED the drain wait begins; in Idle or DRAIN it is a
SpuriousCompletion (R105). Without a latched completion it is not taken. -/
def Obligations.AckBeginsDrainOrIsSpurious : Prop :=
  ∀ s : State,
    (s.cplPending = true → s.xfer = .busy ∧ s.phase = .armed →
      runTurn .ack s = .next { s with
        trace := s.trace ++ [.cplAck], cplPending := false, phase := .drain }) ∧
    (s.cplPending = true → s.xfer = .idle ∨ s.phase = .drain →
      runTurn .ack s = .next { s with
        trace := s.trace ++ [.cplAck], cplPending := false
        faults := { s.faults with spurious := true } }) ∧
    (s.cplPending = false → ∀ t, runTurn .ack s = .next t →
      t.trace = s.trace ∧ t.phase = s.phase ∧ t.faults = s.faults)

/-- R82: FINALIZE, enabled once the peripheral reports not busy in DRAIN; while it is not enabled nothing of it
happens. -/
def Obligations.FinalizeReleasesAfterTheDrain : Prop :=
  ∀ s : State,
    (s.xfer = .busy → s.phase = .drain → s.txBusy = false →
      runTurn .finalize s = .next { s with
        trace := s.trace ++ [.rxRestore, .csDeassert]
        rxSuppressed := false, csActive := false, xfer := .idle, phase := .armed, cursor := 1 }) ∧
    (¬ (s.xfer = .busy ∧ s.phase = .drain ∧ s.txBusy = false) →
      ∀ t, runTurn .finalize s = .next t →
        t.trace = s.trace ∧ t.xfer = s.xfer ∧ t.phase = s.phase ∧ t.csActive = s.csActive ∧
        t.rxSuppressed = s.rxSuppressed ∧ t.cursor = s.cursor)

/-- An ACK, FINALIZE or WIRE turn whose enabling condition (R81, R82, R84) does not hold passes without effect:
the model's choice (log 2). -/
def Obligations.DisabledTurnsPassWithoutEffect : Prop :=
  ∀ s : State,
    (s.cplPending = false → runTurn .ack s = .next s) ∧
    (¬ (s.xfer = .busy ∧ s.phase = .drain ∧ s.txBusy = false) → runTurn .finalize s = .next s) ∧
    (¬ (s.xfer = .busy ∧ s.phase = .armed ∧ s.cplPending = false ∧ s.wireSent < s.armLen) →
      runTurn .wire s = .next s)

/-- R84: between ARM and COMPLETE a WIRE turn sends the region's next byte, in increasing address order: the
buffer's byte, or some byte where the cell holds no value. The model's own in it: that the four hypotheses on the
state are when PLATFORM may send (DEDUCED, log 10), the counter `wireSent` and its advance (DESIGN CHOICE, log
10), and the advance of `draws` at every byte (DESIGN CHOICE, log 7). -/
def Obligations.WireSendsTheNextBurstByte : Prop :=
  ∀ s : State, Inv s → s.xfer = .busy → s.phase = .armed → s.cplPending = false →
    s.wireSent < s.armLen →
    ∃ b : Byte, (∀ c, Memory.read s.mem (s.armAddr + s.wireSent) = some c → b = c) ∧
      runTurn .wire s = .next { s with
        trace := s.trace ++ [.wire b], wireSent := s.wireSent + 1, draws := s.draws + 1 }

/-- R32: a change of the `tx_busy` input changes that level alone. -/
def Obligations.TxBusyTurnSetsTheLevelAlone : Prop :=
  ∀ (s : State) (level : Bool), runTurn (.txBusy level) s = .next { s with txBusy := level }

/-! ## Invariants -/

/-- Power-on of any well-formed instance, the spec's among them, meets the invariants, and its empty trace is in
order. -/
def Obligations.PowerOnMeetsTheInvariants : Prop :=
  (∀ (p : Config.Params) (k : Nat), p.wf → Inv (State.powerOn p k) ∧ Framed (State.powerOn p k)) ∧
  Config.params.wf ∧ State.reset = State.powerOn Config.params 0

/-- R35 (a) to (c), R21, R42 and the widths, kept by every step of every agent; the parameters never change, nor
does the model's stream of free values (log 21). -/
def Obligations.EveryStepKeepsTheInvariants : Prop :=
  ∀ s t : State, Inv s → step s = .next t → Inv t ∧ t.params = s.params ∧ t.stream = s.stream

/-- R90, R92, R127, R128: every step of every agent keeps the trace in the order of a frame, standing where the
control point stands. -/
def Obligations.EveryStepKeepsTheTraceFramed : Prop :=
  ∀ s t : State, Framed s → step s = .next t → Framed t

/-- From a state that meets the invariants no step stops: no fault and no refusal. -/
def Obligations.InvariantStatesNeverStop : Prop :=
  ∀ s : State, Inv s → ∃ t, step s = .next t

/-- R13, R30, R34: the cursor fits the least width that holds CAPACITY, the latches and the LENGTH field theirs;
at CAPACITY = 1025 these widths are 11 and 13. -/
def Obligations.RegistersFitTheirWidths : Prop :=
  ∀ s : State, Inv s →
    s.cursor < 2 ^ s.params.cursorBits ∧ 2 ^ (s.params.cursorBits - 1) ≤ s.params.capacity ∧
    s.armAddr < 2 ^ s.params.latchBits ∧ s.armLen < 2 ^ s.params.latchBits ∧
    (lengthRead s).toNat < 2 ^ s.params.latchBits ∧
    (s.params.capacity = 1025 → s.params.cursorBits = 11 ∧ s.params.latchBits = 13)

/-- R35 (d), R49, R51: no step that stays Busy changes W, the cursor, the burst descriptor or the outputs. -/
def Obligations.BusyFreezesBufferAndCursor : Prop :=
  ∀ s t : State, step s = .next t → s.xfer = .busy → t.xfer = .busy →
    t.mem = s.mem ∧ t.cursor = s.cursor ∧ t.armAddr = s.armAddr ∧ t.armLen = s.armLen ∧
    t.csActive = s.csActive ∧ t.rxSuppressed = s.rxSuppressed

/-- R22, R79, R126: Busy is left only by FINALIZE, with tx_busy = 0 observed and chip-select deasserted, or by a
hardware reset. -/
def Obligations.OnlyFinalizeOrResetLeavesBusy : Prop :=
  ∀ s t : State, step s = .next t → s.xfer = .busy → t.xfer = .idle →
    s.turns.head? = some .hwReset ∨
    (s.phase = .drain ∧ s.txBusy = false ∧ t.trace = s.trace ++ [.rxRestore, .csDeassert] ∧
      t.csActive = false ∧ t.rxSuppressed = false ∧ t.cursor = 1)

/-- R22, R79: Busy is entered only by START with a payload, in phase ARMED, with that burst's ARM in the trace. -/
def Obligations.OnlyStartEntersBusy : Prop :=
  ∀ s t : State, step s = .next t → s.xfer = .idle → t.xfer = .busy →
    (∃ w rest, s.turns = .command w :: rest ∧ decodeCommand w = .start) ∧ 2 ≤ s.cursor ∧
    t.phase = .armed ∧
    t.trace.getLast? = some (.arm (s.params.bufferBase + t.armAddr) t.armLen)

/-- R44, R130: W[0] changes only by PREFIX and by a hardware reset. -/
def Obligations.PrefixCellPersists : Prop :=
  ∀ s t : State, Inv s → step s = .next t →
    (∀ w d, s.turns.head? = some (.command w) → decodeCommand w ≠ .prefixCell d) →
    s.turns.head? ≠ some .hwReset →
    Memory.readCell t.mem 0 = Memory.readCell s.mem 0

/-- R57: SEQ's steps, placed or on its own, write no cell. -/
def Obligations.SequencerWritesNoCell : Prop :=
  ∀ s t : State, step s = .next t →
    s.turns = [] ∨ s.turns.head? = some .seq ∨ s.turns.head? = some .ack ∨
      s.turns.head? = some .finalize →
    t.mem = s.mem

/-- R52: an IS_BUSY answer of 0 means that no frame is open: chip-select and receive suppression are off and the
trace stands outside a frame. -/
def Obligations.IdleAnswerMeansTheFrameIsClosed : Prop :=
  ∀ s t : State, Inv s → Framed s → exec .isBusy s = .next t → t.rsp = some ⟨.ok, 0#32⟩ →
    s.csActive = false ∧ s.rxSuppressed = false ∧ frameOf t.trace = some .idle

/-! ## Whole transfers -/

/-- R129: a COMPLETE that comes right after START is the burst's own: ACK takes it into the drain wait and no fault
is recorded. -/
def Obligations.CompletionRightAfterStartIsTheBurstsOwn : Prop :=
  ∀ (s : State) (w : CmdWord) (rest : List Turn), opField w = 0b100#3 → s.xfer = .idle →
    2 ≤ s.cursor → s.cplPending = false → s.turns = .command w :: .complete :: .ack :: rest →
    ∃ t, runSteps 3 s = .next t ∧ t.xfer = .busy ∧ t.phase = .drain ∧ t.cplPending = false ∧
      t.csActive = true ∧ t.faults = s.faults ∧ t.turns = rest

/-- R90, R91: from an Idle state with a payload and no latched completion, START, the burst's bytes, COMPLETE,
ACK and FINALIZE leave exactly one frame in the trace: CS_ASSERT, RX_SUPPRESS, one ARM, the bytes of
`MemRead(4 − P, 4·(c − 1) + P)` at START, COMPLETE, CPL_ACK, RX_RESTORE, CS_DEASSERT; the engine is Idle with
the cursor at 1 and the buffer as it was. (The list of turns is the model's, log 1; tx_busy is 0 throughout, as
R86 has it where the peripheral does not shift independently.) -/
def Obligations.WholeTransferBracketsItsBurst : Prop :=
  ∀ (s : State) (rest : List Turn), Inv s → s.xfer = .idle → 2 ≤ s.cursor → s.cplPending = false →
    s.txBusy = false →
    s.turns = .command (encode .start) ::
      (List.replicate (burstLen s.params s.cursor) .wire ++ .complete :: .ack :: .finalize :: rest) →
    ∃ t, runSteps (burstLen s.params s.cursor + 4) s = .next t ∧
      t.trace = s.trace ++
        [.csAssert, .rxSuppress,
          .arm (s.params.bufferBase + burstAddr s.params) (burstLen s.params s.cursor)] ++
        (memRead s (burstAddr s.params) (burstLen s.params s.cursor)).map .wire ++
        [.complete, .cplAck, .rxRestore, .csDeassert] ∧
      t.xfer = .idle ∧ t.cursor = 1 ∧ t.csActive = false ∧ t.rxSuppressed = false ∧
      t.cplPending = false ∧ t.mem = s.mem ∧ t.faults = s.faults ∧ t.turns = rest

/-- R89 as the model has it: a latched completion of the armed burst, with tx_busy = 0 and nothing placed, ends
the transfer in two steps of SEQ. That SEQ acts on its own in the very next steps when nothing is placed is the
model's choice (DESIGN CHOICE, log 1, unsafe for such statements); R89 says only that it acts eventually. -/
def Obligations.LatchedCompletionEndsTheTransfer : Prop :=
  ∀ s : State, s.turns = [] → s.xfer = .busy → s.phase = .armed → s.cplPending = true →
    s.txBusy = false →
    ∃ t, runSteps 2 s = .next t ∧ t.xfer = .idle ∧ t.cursor = 1 ∧
      t.trace = s.trace ++ [.cplAck, .rxRestore, .csDeassert] ∧ t.csActive = false ∧
      t.faults = s.faults

/-- R89, weak fairness as the model has it (log 1): once nothing is placed, an enabled ACK and an enabled FINALIZE
are each taken within two steps, whichever SEQ takes first. -/
def Obligations.EnabledSequencerStepsAreTaken : Prop :=
  ∀ s : State, s.turns = [] →
    (s.cplPending = true →
      ∃ t, runSteps 2 s = .next t ∧ t.cplPending = false ∧
        .cplAck ∈ t.trace.drop s.trace.length) ∧
    (s.xfer = .busy → s.phase = .drain → s.txBusy = false →
      ∃ t, runSteps 2 s = .next t ∧ t.xfer = .idle ∧
        .csDeassert ∈ t.trace.drop s.trace.length)

/-- R106, R131, in one order (nothing placed, so that SEQ acts on its own, log 1): with tx_busy stuck at 1 in DRAIN
the engine stays Busy with chip-select as it was for ever; the run goes on. Every other order is in
DrainHangHoldsInEveryOrder. -/
def Obligations.DrainHangHoldsForEver : Prop :=
  ∀ (s : State) (k : Nat), DrainHolds s → s.turns = [] →
    ∃ t, runSteps k s = .next t ∧ DrainHolds t ∧ t.csActive = s.csActive ∧
      t.trace = s.trace ∧ t.cursor = s.cursor ∧ t.mem = s.mem

/-- R67, R23: one pass of POLL_IDLE answers the busy byte, BUSY_SENTINEL in the low byte and zeros above while
Busy, and the loop is left exactly when the engine is Idle. -/
def Obligations.PollLoopExitsExactlyWhenIdle : Prop :=
  ∀ (s : State) (rest : List Turn), s.params.wf → s.turns = .pollIdle :: rest →
    ∃ (t : State) (d : Word), step s = .next t ∧ t.rsp = some ⟨.ok, d⟩ ∧ d = statusRead s ∧
      (s.xfer = .idle → d = 0#32 ∧ t.turns = rest) ∧
      (s.xfer = .busy → d.extractLsb' 0 8 = s.params.busySentinel ∧ d.toNat < 2 ^ 8 ∧ d ≠ 0#32 ∧
        .pollIdle ∈ t.turns) ∧
      t.xfer = s.xfer ∧ t.trace = s.trace ∧ t.mem = s.mem ∧ t.cursor = s.cursor

/-- R106, R131: "A producer that runs POLL_IDLE then loops for ever." Here POLL_IDLE alone is placed; every other
order is in DrainHangHoldsInEveryOrder. (The loop's place among the turns is the model's, log 16.) -/
def Obligations.PollLoopNeverExitsInADrainHang : Prop :=
  ∀ (s : State) (k : Nat), s.params.wf → DrainHolds s → s.turns = [.pollIdle] →
    ∃ t, runSteps k s = .next t ∧ DrainHolds t ∧ .pollIdle ∈ t.turns ∧
      t.trace = s.trace

/-- R88, R105, R124: while PRODUCER polls before it mutates and PLATFORM keeps its duties, of either kind of
peripheral, no step records a fault, and a latched completion is always the armed burst's own. -/
def Obligations.DutifulPartiesRecordNoFault : Prop :=
  ∀ (shifts : Bool) (s t : State), FaultFree s → LatchOwned s → polite (nextTurn s).1 s = true →
    dutiful shifts (nextTurn s).1 s = true → step s = .next t → FaultFree t ∧ LatchOwned t

/-! ## Responses, the drain hang in every order, and PLATFORM's duties -/

/-- R61: the four codes of `rsp_status[1:0]`. -/
def Obligations.ResponseStatusCodes : Prop :=
  Status.code .ok = 0b00#2 ∧ Status.code .bufferFull = 0b01#2 ∧
  Status.code .concurrentAccess = 0b10#2 ∧ Status.code .illegal = 0b11#2

/-- R61: "Every command receives exactly one response in the step that executes it", and `rsp_data` is 0 but for
IS_BUSY, LENGTH and READ_FAULTS; each status is given where R61's table says and nowhere else. -/
def Obligations.EveryCommandGetsItsResponse : Prop :=
  ∀ (i : Instr) (s t : State), exec i s = .next t → ∃ r, t.rsp = some r ∧
    (i ≠ .isBusy → i ≠ .length → i ≠ .readFaults → r.data = 0#32) ∧
    (r.status = .bufferFull ↔ (∃ d, i = .append d) ∧ s.xfer = .idle ∧
      s.cursor = s.params.capacity) ∧
    (r.status = .concurrentAccess ↔ s.xfer = .busy ∧
      (i = .bufReset ∨ i = .start ∨ (∃ d, i = .append d) ∨ ∃ d, i = .prefixCell d)) ∧
    (r.status = .illegal ↔ i = .reserved000)

/-- R106, R107, in every order: from Busy in DRAIN with tx_busy = 1 every step, whichever agent's, answers a next
state that is still there, unless its turn lets tx_busy fall or resets the hardware; buffer, cursor, burst
descriptor and outputs stay as they are. -/
def Obligations.DrainHangSurvivesEveryOtherTurn : Prop :=
  ∀ s : State, Draining s → (nextTurn s).1.endsDrain = false →
    ∃ t, step s = .next t ∧ Draining t ∧ t.csActive = s.csActive ∧
      t.rxSuppressed = s.rxSuppressed ∧ t.cursor = s.cursor ∧ t.mem = s.mem ∧
      t.armAddr = s.armAddr ∧ t.armLen = s.armLen

/-- R106, R107, R131, over any number of steps and any order of the agents' moves in which tx_busy never falls and
the hardware is never reset: the engine stays Busy in DRAIN for ever, the run goes on, and a POLL_IDLE that is
placed is never left. (The list of turns is the model's, log 1; POLL_IDLE's place in it, log 16.) -/
def Obligations.DrainHangHoldsInEveryOrder : Prop :=
  ∀ (s : State) (k : Nat), Draining s → (∀ t ∈ s.turns, t.endsDrain = false) →
    ∃ t, runSteps k s = .next t ∧ Draining t ∧ t.csActive = s.csActive ∧ t.cursor = s.cursor ∧
      t.mem = s.mem ∧ (s.params.wf → .pollIdle ∈ s.turns → .pollIdle ∈ t.turns)

/-- R85, R86, R88, with R82 and R126: while PLATFORM keeps its duties, of either kind of peripheral, `OnDuty` is
kept; tx_busy rises only while Busy with bytes of the burst left and falls only with none left; and chip-select
is released by FINALIZE only once the whole burst is on the wire and tx_busy has been seen 0. (The moves of R86
are read as log 22 says.) -/
def Obligations.DutifulPlatformFramesTheWholeBurst : Prop :=
  ∀ (shifts : Bool) (s t : State), OnDuty shifts s → dutiful shifts (nextTurn s).1 s = true →
    step s = .next t →
    OnDuty shifts t ∧
    (s.txBusy = false → t.txBusy = true → shifts = true ∧ bytesLeft s = true) ∧
    (s.txBusy = true → t.txBusy = false → bytesLeft s = false) ∧
    (s.xfer = .busy → t.xfer = .idle → (nextTurn s).1 ≠ .hwReset →
      s.wireSent = s.armLen ∧ s.txBusy = false)
end

