-- ==== Sys2Proof/Laws/Memory.lean ====
section
/-! SUPPORT. The laws of the buffer's bytes and cells: reading after writing, the canonical form kept, the
byte range kept (spec/20_memory.md R41–R43). -/

namespace Sys2Proof.Machine

theorem Memory.read_write_same (m : Memory) (a : Nat) (b : Byte) :
    Memory.read (Memory.write m a b) a = some b := by
  induction m with
  | nil => simp [Memory.write, Memory.read]
  | cons c m ih =>
    obtain ⟨a', b'⟩ := c
    simp only [Memory.write]
    split
    · simp [Memory.read]
    · split
      · simp [Memory.read]
      · rename_i h1 h2
        simp [Memory.read, h2, ih]

theorem Memory.read_write_other (m : Memory) {a a' : Nat} (b : Byte) (h : a' ≠ a) :
    Memory.read (Memory.write m a b) a' = Memory.read m a' := by
  induction m with
  | nil => simp [Memory.write, Memory.read, h]
  | cons c m ih =>
    obtain ⟨x, y⟩ := c
    simp only [Memory.write]
    split
    · simp [Memory.read, h]
    · split
      · rename_i h1 h2
        subst h2
        simp [Memory.read, h]
      · simp only [Memory.read, ih]

theorem Memory.read_write (m : Memory) (a a' : Nat) (b : Byte) :
    Memory.read (Memory.write m a b) a' = if a' = a then some b else Memory.read m a' := by
  split
  · next h => rw [h, Memory.read_write_same]
  · next h => exact Memory.read_write_other m b h

/-- Every address of a written memory is the written one or an old one. -/
theorem Memory.mem_write {m : Memory} {a : Nat} {b : Byte} {c : Host.Cell}
    (h : c ∈ Memory.write m a b) : c = (a, b) ∨ c ∈ m := by
  induction m with
  | nil => exact .inl (by simpa [Memory.write] using h)
  | cons d m ih =>
    obtain ⟨x, y⟩ := d
    simp only [Memory.write] at h
    split at h
    · simpa using h
    · split at h
      · rcases List.mem_cons.1 h with h | h
        · exact .inl h
        · exact .inr (List.mem_cons_of_mem _ h)
      · rcases List.mem_cons.1 h with h | h
        · exact .inr (by simp [h])
        · rcases ih h with h | h
          · exact .inl h
          · exact .inr (List.mem_cons_of_mem _ h)

theorem Memory.wf_write {m : Memory} (hm : Memory.wf m) (a : Nat) (b : Byte) :
    Memory.wf (Memory.write m a b) := by
  induction m with
  | nil => exact List.pairwise_singleton _ _
  | cons c m ih =>
    obtain ⟨x, y⟩ := c
    obtain ⟨hx, hm'⟩ := List.pairwise_cons.1 hm
    simp only [Memory.write]
    split
    · next h1 =>
      refine List.pairwise_cons.2 ⟨fun z hz => ?_, hm⟩
      rcases List.mem_cons.1 hz with rfl | hz
      · exact h1
      · exact Nat.lt_trans h1 (hx z hz)
    · split
      · next h1 h2 =>
        subst h2
        exact List.pairwise_cons.2 ⟨hx, hm'⟩
      · next h1 h2 =>
        refine List.pairwise_cons.2 ⟨fun z hz => ?_, ih hm'⟩
        obtain ⟨c, hc, rfl⟩ := List.mem_map.1 hz
        rcases Memory.mem_write hc with rfl | hc
        · exact Nat.lt_of_le_of_ne (Nat.le_of_not_lt h1) (Ne.symm h2)
        · exact hx _ (List.mem_map_of_mem hc)

theorem Memory.wf_writeCell {m : Memory} (hm : Memory.wf m) (i : Nat) (v : Word) :
    Memory.wf (Memory.writeCell m i v) :=
  Memory.wf_write (Memory.wf_write (Memory.wf_write (Memory.wf_write hm _ _) _ _) _ _) _ _

/-- The four lanes of a stored cell. -/
theorem Memory.read_writeCell_lane (m : Memory) (i : Nat) (v : Word) {k : Nat} (hk : k < 4) :
    Memory.read (Memory.writeCell m i v) (laneAddr i k) = some (laneByte v k) := by
  have : k = 0 ∨ k = 1 ∨ k = 2 ∨ k = 3 := by omega
  rcases this with rfl | rfl | rfl | rfl <;>
    simp [Memory.writeCell, Memory.read_write, laneAddr]

/-- A stored cell leaves every byte outside its four lanes alone. -/
theorem Memory.read_writeCell_outside (m : Memory) (i : Nat) (v : Word) {a : Nat}
    (ha : a < laneAddr i 0 ∨ laneAddr i 0 + 4 ≤ a) :
    Memory.read (Memory.writeCell m i v) a = Memory.read m a := by
  have h0 : a ≠ laneAddr i 0 := by unfold laneAddr at *; omega
  have h1 : a ≠ laneAddr i 1 := by unfold laneAddr at *; omega
  have h2 : a ≠ laneAddr i 2 := by unfold laneAddr at *; omega
  have h3 : a ≠ laneAddr i 3 := by unfold laneAddr at *; omega
  simp [Memory.writeCell, Memory.read_write, h0, h1, h2, h3]

/-- Every address of a stored cell's memory is one of its lanes or an old one. -/
theorem Memory.mem_writeCell {m : Memory} {i : Nat} {v : Word} {c : Host.Cell}
    (h : c ∈ Memory.writeCell m i v) : (c.1 / 4 = i) ∨ c ∈ m := by
  have lane : ∀ k < 4, ∀ b : Byte, ((laneAddr i k, b) : Host.Cell).1 / 4 = i := by
    intro k hk b; show (4 * i + k) / 4 = i; omega
  rcases Memory.mem_write h with rfl | h
  · exact .inl (lane 3 (by omega) _)
  rcases Memory.mem_write h with rfl | h
  · exact .inl (lane 2 (by omega) _)
  rcases Memory.mem_write h with rfl | h
  · exact .inl (lane 1 (by omega) _)
  rcases Memory.mem_write h with rfl | h
  · exact .inl (lane 0 (by omega) _)
  · exact .inr h

/-- The four lanes put together are the word. -/
theorem cellOfLanes_laneByte (v : Word) :
    cellOfLanes (laneByte v 0) (laneByte v 1) (laneByte v 2) (laneByte v 3) = v := by
  apply BitVec.eq_of_getLsbD_eq
  intro n hn
  simp only [cellOfLanes, laneByte, BitVec.getLsbD_append, BitVec.getLsbD_extractLsb']
  by_cases h0 : n < 8
  · simp [h0]
  by_cases h1 : n - 8 < 8
  · have : 8 + (n - 8) = n := by omega
    simp [h0, h1, this]
  by_cases h2 : n - 8 - 8 < 8
  · have : 16 + (n - 8 - 8) = n := by omega
    simp [h0, h1, h2, this]
  · have h3 : n - 8 - 8 - 8 < 8 := by omega
    have : 24 + (n - 8 - 8 - 8) = n := by omega
    simp [h0, h1, h2, h3, this]

theorem Memory.readCell_writeCell_same (m : Memory) (i : Nat) (v : Word) :
    Memory.readCell (Memory.writeCell m i v) i = some v := by
  simp only [Memory.readCell, Memory.read_writeCell_lane m i v (show 0 < 4 by omega),
    Memory.read_writeCell_lane m i v (show 1 < 4 by omega),
    Memory.read_writeCell_lane m i v (show 2 < 4 by omega),
    Memory.read_writeCell_lane m i v (show 3 < 4 by omega), cellOfLanes_laneByte]

theorem Memory.readCell_writeCell_other (m : Memory) {i j : Nat} (v : Word) (h : j ≠ i) :
    Memory.readCell (Memory.writeCell m i v) j = Memory.readCell m j := by
  have out : ∀ k < 4, Memory.read (Memory.writeCell m i v) (laneAddr j k) =
      Memory.read m (laneAddr j k) := fun k hk =>
    Memory.read_writeCell_outside m i v (by unfold laneAddr; omega)
  simp only [Memory.readCell, out 0 (by omega), out 1 (by omega), out 2 (by omega), out 3 (by omega)]

end Sys2Proof.Machine
end

