-- ==== Sys2Proof/Laws/State.lean ====
section
/-! SUPPORT. What each named update of the state leaves in each field: one lemma per field per update, so
that no later proof unfolds a record update. -/

namespace Sys2Proof.Machine

section emit

@[simp] theorem emit_params (e : Event) (s : State) : (emit e s).params = s.params := rfl
@[simp] theorem emit_mem (e : Event) (s : State) : (emit e s).mem = s.mem := rfl
@[simp] theorem emit_cursor (e : Event) (s : State) : (emit e s).cursor = s.cursor := rfl
@[simp] theorem emit_xfer (e : Event) (s : State) : (emit e s).xfer = s.xfer := rfl
@[simp] theorem emit_phase (e : Event) (s : State) : (emit e s).phase = s.phase := rfl
@[simp] theorem emit_csActive (e : Event) (s : State) : (emit e s).csActive = s.csActive := rfl
@[simp] theorem emit_rxSuppressed (e : Event) (s : State) :
    (emit e s).rxSuppressed = s.rxSuppressed := rfl
@[simp] theorem emit_armAddr (e : Event) (s : State) : (emit e s).armAddr = s.armAddr := rfl
@[simp] theorem emit_armLen (e : Event) (s : State) : (emit e s).armLen = s.armLen := rfl
@[simp] theorem emit_cplPending (e : Event) (s : State) : (emit e s).cplPending = s.cplPending := rfl
@[simp] theorem emit_faults (e : Event) (s : State) : (emit e s).faults = s.faults := rfl
@[simp] theorem emit_txBusy (e : Event) (s : State) : (emit e s).txBusy = s.txBusy := rfl
@[simp] theorem emit_turns (e : Event) (s : State) : (emit e s).turns = s.turns := rfl
@[simp] theorem emit_rsp (e : Event) (s : State) : (emit e s).rsp = s.rsp := rfl
@[simp] theorem emit_trace (e : Event) (s : State) : (emit e s).trace = s.trace ++ [e] := rfl
@[simp] theorem emit_wireSent (e : Event) (s : State) : (emit e s).wireSent = s.wireSent := rfl
@[simp] theorem emit_draws (e : Event) (s : State) : (emit e s).draws = s.draws := rfl
@[simp] theorem emit_choices (e : Event) (s : State) : (emit e s).choices = s.choices := rfl
@[simp] theorem emit_stream (e : Event) (s : State) : (emit e s).stream = s.stream := rfl

end emit

section respond

@[simp] theorem respond_params (st : Status) (d : Word) (s : State) :
    (respond st d s).params = s.params := rfl
@[simp] theorem respond_mem (st : Status) (d : Word) (s : State) : (respond st d s).mem = s.mem := rfl
@[simp] theorem respond_cursor (st : Status) (d : Word) (s : State) :
    (respond st d s).cursor = s.cursor := rfl
@[simp] theorem respond_xfer (st : Status) (d : Word) (s : State) : (respond st d s).xfer = s.xfer := rfl
@[simp] theorem respond_phase (st : Status) (d : Word) (s : State) :
    (respond st d s).phase = s.phase := rfl
@[simp] theorem respond_csActive (st : Status) (d : Word) (s : State) :
    (respond st d s).csActive = s.csActive := rfl
@[simp] theorem respond_rxSuppressed (st : Status) (d : Word) (s : State) :
    (respond st d s).rxSuppressed = s.rxSuppressed := rfl
@[simp] theorem respond_armAddr (st : Status) (d : Word) (s : State) :
    (respond st d s).armAddr = s.armAddr := rfl
@[simp] theorem respond_armLen (st : Status) (d : Word) (s : State) :
    (respond st d s).armLen = s.armLen := rfl
@[simp] theorem respond_cplPending (st : Status) (d : Word) (s : State) :
    (respond st d s).cplPending = s.cplPending := rfl
@[simp] theorem respond_faults (st : Status) (d : Word) (s : State) :
    (respond st d s).faults = s.faults := rfl
@[simp] theorem respond_txBusy (st : Status) (d : Word) (s : State) :
    (respond st d s).txBusy = s.txBusy := rfl
@[simp] theorem respond_turns (st : Status) (d : Word) (s : State) :
    (respond st d s).turns = s.turns := rfl
@[simp] theorem respond_rsp (st : Status) (d : Word) (s : State) :
    (respond st d s).rsp = some ⟨st, d⟩ := rfl
@[simp] theorem respond_trace (st : Status) (d : Word) (s : State) :
    (respond st d s).trace = s.trace := rfl
@[simp] theorem respond_wireSent (st : Status) (d : Word) (s : State) :
    (respond st d s).wireSent = s.wireSent := rfl
@[simp] theorem respond_draws (st : Status) (d : Word) (s : State) :
    (respond st d s).draws = s.draws := rfl
@[simp] theorem respond_choices (st : Status) (d : Word) (s : State) :
    (respond st d s).choices = s.choices := rfl
@[simp] theorem respond_stream (st : Status) (d : Word) (s : State) :
    (respond st d s).stream = s.stream := rfl

end respond

section raise

@[simp] theorem raise_params (e : Exc) (s : State) : (raise e s).params = s.params := by cases e <;> rfl
@[simp] theorem raise_mem (e : Exc) (s : State) : (raise e s).mem = s.mem := by cases e <;> rfl
@[simp] theorem raise_cursor (e : Exc) (s : State) : (raise e s).cursor = s.cursor := by cases e <;> rfl
@[simp] theorem raise_xfer (e : Exc) (s : State) : (raise e s).xfer = s.xfer := by cases e <;> rfl
@[simp] theorem raise_phase (e : Exc) (s : State) : (raise e s).phase = s.phase := by cases e <;> rfl
@[simp] theorem raise_csActive (e : Exc) (s : State) :
    (raise e s).csActive = s.csActive := by cases e <;> rfl
@[simp] theorem raise_rxSuppressed (e : Exc) (s : State) :
    (raise e s).rxSuppressed = s.rxSuppressed := by cases e <;> rfl
@[simp] theorem raise_armAddr (e : Exc) (s : State) :
    (raise e s).armAddr = s.armAddr := by cases e <;> rfl
@[simp] theorem raise_armLen (e : Exc) (s : State) : (raise e s).armLen = s.armLen := by cases e <;> rfl
@[simp] theorem raise_cplPending (e : Exc) (s : State) :
    (raise e s).cplPending = s.cplPending := by cases e <;> rfl
@[simp] theorem raise_faults (e : Exc) (s : State) :
    (raise e s).faults = e.faultsAfter s.params s.faults := by cases e <;> rfl
@[simp] theorem raise_txBusy (e : Exc) (s : State) : (raise e s).txBusy = s.txBusy := by cases e <;> rfl
@[simp] theorem raise_turns (e : Exc) (s : State) : (raise e s).turns = s.turns := by cases e <;> rfl
@[simp] theorem raise_rsp (e : Exc) (s : State) :
    (raise e s).rsp = (match e.status with | some c => some ⟨c, 0#32⟩ | none => s.rsp) := by cases e <;> rfl
@[simp] theorem raise_trace (e : Exc) (s : State) : (raise e s).trace = s.trace := by cases e <;> rfl
@[simp] theorem raise_wireSent (e : Exc) (s : State) :
    (raise e s).wireSent = s.wireSent := by cases e <;> rfl
@[simp] theorem raise_draws (e : Exc) (s : State) : (raise e s).draws = s.draws := by cases e <;> rfl
@[simp] theorem raise_choices (e : Exc) (s : State) :
    (raise e s).choices = s.choices := by cases e <;> rfl
@[simp] theorem raise_stream (e : Exc) (s : State) :
    (raise e s).stream = s.stream := by cases e <;> rfl

end raise

section ackLatch

@[simp] theorem ackLatch_params (s : State) : (ackLatch s).params = s.params := rfl
@[simp] theorem ackLatch_mem (s : State) : (ackLatch s).mem = s.mem := rfl
@[simp] theorem ackLatch_cursor (s : State) : (ackLatch s).cursor = s.cursor := rfl
@[simp] theorem ackLatch_xfer (s : State) : (ackLatch s).xfer = s.xfer := rfl
@[simp] theorem ackLatch_phase (s : State) : (ackLatch s).phase = s.phase := rfl
@[simp] theorem ackLatch_csActive (s : State) : (ackLatch s).csActive = s.csActive := rfl
@[simp] theorem ackLatch_rxSuppressed (s : State) : (ackLatch s).rxSuppressed = s.rxSuppressed := rfl
@[simp] theorem ackLatch_armAddr (s : State) : (ackLatch s).armAddr = s.armAddr := rfl
@[simp] theorem ackLatch_armLen (s : State) : (ackLatch s).armLen = s.armLen := rfl
@[simp] theorem ackLatch_cplPending (s : State) : (ackLatch s).cplPending = false := rfl
@[simp] theorem ackLatch_faults (s : State) : (ackLatch s).faults = s.faults := rfl
@[simp] theorem ackLatch_txBusy (s : State) : (ackLatch s).txBusy = s.txBusy := rfl
@[simp] theorem ackLatch_turns (s : State) : (ackLatch s).turns = s.turns := rfl
@[simp] theorem ackLatch_rsp (s : State) : (ackLatch s).rsp = s.rsp := rfl
@[simp] theorem ackLatch_trace (s : State) : (ackLatch s).trace = s.trace ++ [.cplAck] := rfl
@[simp] theorem ackLatch_wireSent (s : State) : (ackLatch s).wireSent = s.wireSent := rfl
@[simp] theorem ackLatch_draws (s : State) : (ackLatch s).draws = s.draws := rfl
@[simp] theorem ackLatch_choices (s : State) : (ackLatch s).choices = s.choices := rfl
@[simp] theorem ackLatch_stream (s : State) : (ackLatch s).stream = s.stream := rfl

end ackLatch

section armBurst

@[simp] theorem armBurst_params (s : State) : (armBurst s).params = s.params := rfl
@[simp] theorem armBurst_mem (s : State) : (armBurst s).mem = s.mem := rfl
@[simp] theorem armBurst_cursor (s : State) : (armBurst s).cursor = s.cursor := rfl
@[simp] theorem armBurst_xfer (s : State) : (armBurst s).xfer = .busy := rfl
@[simp] theorem armBurst_phase (s : State) : (armBurst s).phase = .armed := rfl
@[simp] theorem armBurst_csActive (s : State) : (armBurst s).csActive = true := rfl
@[simp] theorem armBurst_rxSuppressed (s : State) : (armBurst s).rxSuppressed = true := rfl
@[simp] theorem armBurst_armAddr (s : State) : (armBurst s).armAddr = burstAddr s.params := rfl
@[simp] theorem armBurst_armLen (s : State) : (armBurst s).armLen = burstLen s.params s.cursor := rfl
@[simp] theorem armBurst_cplPending (s : State) : (armBurst s).cplPending = s.cplPending := rfl
@[simp] theorem armBurst_faults (s : State) : (armBurst s).faults = s.faults := rfl
@[simp] theorem armBurst_txBusy (s : State) : (armBurst s).txBusy = s.txBusy := rfl
@[simp] theorem armBurst_turns (s : State) : (armBurst s).turns = s.turns := rfl
@[simp] theorem armBurst_rsp (s : State) : (armBurst s).rsp = s.rsp := rfl
@[simp] theorem armBurst_trace (s : State) :
    (armBurst s).trace = s.trace ++ [.csAssert] ++ [.rxSuppress] ++
      [.arm (platformAddr s.params (burstAddr s.params)) (burstLen s.params s.cursor)] := rfl
@[simp] theorem armBurst_wireSent (s : State) : (armBurst s).wireSent = 0 := rfl
@[simp] theorem armBurst_draws (s : State) : (armBurst s).draws = s.draws := rfl
@[simp] theorem armBurst_choices (s : State) : (armBurst s).choices = s.choices := rfl
@[simp] theorem armBurst_stream (s : State) : (armBurst s).stream = s.stream := rfl

end armBurst

section releaseBurst

@[simp] theorem releaseBurst_params (s : State) : (releaseBurst s).params = s.params := rfl
@[simp] theorem releaseBurst_mem (s : State) : (releaseBurst s).mem = s.mem := rfl
@[simp] theorem releaseBurst_cursor (s : State) : (releaseBurst s).cursor = 1 := rfl
@[simp] theorem releaseBurst_xfer (s : State) : (releaseBurst s).xfer = .idle := rfl
@[simp] theorem releaseBurst_phase (s : State) : (releaseBurst s).phase = .armed := rfl
@[simp] theorem releaseBurst_csActive (s : State) : (releaseBurst s).csActive = false := rfl
@[simp] theorem releaseBurst_rxSuppressed (s : State) : (releaseBurst s).rxSuppressed = false := rfl
@[simp] theorem releaseBurst_armAddr (s : State) : (releaseBurst s).armAddr = s.armAddr := rfl
@[simp] theorem releaseBurst_armLen (s : State) : (releaseBurst s).armLen = s.armLen := rfl
@[simp] theorem releaseBurst_cplPending (s : State) : (releaseBurst s).cplPending = s.cplPending := rfl
@[simp] theorem releaseBurst_faults (s : State) : (releaseBurst s).faults = s.faults := rfl
@[simp] theorem releaseBurst_txBusy (s : State) : (releaseBurst s).txBusy = s.txBusy := rfl
@[simp] theorem releaseBurst_turns (s : State) : (releaseBurst s).turns = s.turns := rfl
@[simp] theorem releaseBurst_rsp (s : State) : (releaseBurst s).rsp = s.rsp := rfl
@[simp] theorem releaseBurst_trace (s : State) :
    (releaseBurst s).trace = s.trace ++ [.rxRestore] ++ [.csDeassert] := rfl
@[simp] theorem releaseBurst_wireSent (s : State) : (releaseBurst s).wireSent = s.wireSent := rfl
@[simp] theorem releaseBurst_draws (s : State) : (releaseBurst s).draws = s.draws := rfl
@[simp] theorem releaseBurst_choices (s : State) : (releaseBurst s).choices = s.choices := rfl
@[simp] theorem releaseBurst_stream (s : State) : (releaseBurst s).stream = s.stream := rfl

end releaseBurst

section completeStep

@[simp] theorem completeStep_params (s : State) : (completeStep s).params = s.params := rfl
@[simp] theorem completeStep_mem (s : State) : (completeStep s).mem = s.mem := rfl
@[simp] theorem completeStep_cursor (s : State) : (completeStep s).cursor = s.cursor := rfl
@[simp] theorem completeStep_xfer (s : State) : (completeStep s).xfer = s.xfer := rfl
@[simp] theorem completeStep_phase (s : State) : (completeStep s).phase = s.phase := rfl
@[simp] theorem completeStep_csActive (s : State) : (completeStep s).csActive = s.csActive := rfl
@[simp] theorem completeStep_rxSuppressed (s : State) :
    (completeStep s).rxSuppressed = s.rxSuppressed := rfl
@[simp] theorem completeStep_armAddr (s : State) : (completeStep s).armAddr = s.armAddr := rfl
@[simp] theorem completeStep_armLen (s : State) : (completeStep s).armLen = s.armLen := rfl
@[simp] theorem completeStep_cplPending (s : State) : (completeStep s).cplPending = true := rfl
@[simp] theorem completeStep_faults (s : State) : (completeStep s).faults = s.faults := rfl
@[simp] theorem completeStep_txBusy (s : State) : (completeStep s).txBusy = s.txBusy := rfl
@[simp] theorem completeStep_turns (s : State) : (completeStep s).turns = s.turns := rfl
@[simp] theorem completeStep_rsp (s : State) : (completeStep s).rsp = s.rsp := rfl
@[simp] theorem completeStep_trace (s : State) : (completeStep s).trace = s.trace ++ [.complete] := rfl
@[simp] theorem completeStep_wireSent (s : State) : (completeStep s).wireSent = s.wireSent := rfl
@[simp] theorem completeStep_draws (s : State) : (completeStep s).draws = s.draws := rfl
@[simp] theorem completeStep_choices (s : State) : (completeStep s).choices = s.choices := rfl
@[simp] theorem completeStep_stream (s : State) : (completeStep s).stream = s.stream := rfl

end completeStep

section txBusyStep

@[simp] theorem txBusyStep_params (l : Bool) (s : State) : (txBusyStep l s).params = s.params := rfl
@[simp] theorem txBusyStep_mem (l : Bool) (s : State) : (txBusyStep l s).mem = s.mem := rfl
@[simp] theorem txBusyStep_cursor (l : Bool) (s : State) : (txBusyStep l s).cursor = s.cursor := rfl
@[simp] theorem txBusyStep_xfer (l : Bool) (s : State) : (txBusyStep l s).xfer = s.xfer := rfl
@[simp] theorem txBusyStep_phase (l : Bool) (s : State) : (txBusyStep l s).phase = s.phase := rfl
@[simp] theorem txBusyStep_csActive (l : Bool) (s : State) :
    (txBusyStep l s).csActive = s.csActive := rfl
@[simp] theorem txBusyStep_rxSuppressed (l : Bool) (s : State) :
    (txBusyStep l s).rxSuppressed = s.rxSuppressed := rfl
@[simp] theorem txBusyStep_armAddr (l : Bool) (s : State) : (txBusyStep l s).armAddr = s.armAddr := rfl
@[simp] theorem txBusyStep_armLen (l : Bool) (s : State) : (txBusyStep l s).armLen = s.armLen := rfl
@[simp] theorem txBusyStep_cplPending (l : Bool) (s : State) :
    (txBusyStep l s).cplPending = s.cplPending := rfl
@[simp] theorem txBusyStep_faults (l : Bool) (s : State) : (txBusyStep l s).faults = s.faults := rfl
@[simp] theorem txBusyStep_txBusy (l : Bool) (s : State) : (txBusyStep l s).txBusy = l := rfl
@[simp] theorem txBusyStep_turns (l : Bool) (s : State) : (txBusyStep l s).turns = s.turns := rfl
@[simp] theorem txBusyStep_rsp (l : Bool) (s : State) : (txBusyStep l s).rsp = s.rsp := rfl
@[simp] theorem txBusyStep_trace (l : Bool) (s : State) : (txBusyStep l s).trace = s.trace := rfl
@[simp] theorem txBusyStep_wireSent (l : Bool) (s : State) :
    (txBusyStep l s).wireSent = s.wireSent := rfl
@[simp] theorem txBusyStep_draws (l : Bool) (s : State) : (txBusyStep l s).draws = s.draws := rfl
@[simp] theorem txBusyStep_choices (l : Bool) (s : State) : (txBusyStep l s).choices = s.choices := rfl
@[simp] theorem txBusyStep_stream (l : Bool) (s : State) : (txBusyStep l s).stream = s.stream := rfl

end txBusyStep

section hwResetStep

@[simp] theorem hwResetStep_params (s : State) : (hwResetStep s).params = s.params := rfl
@[simp] theorem hwResetStep_mem (s : State) : (hwResetStep s).mem = [] := rfl
@[simp] theorem hwResetStep_cursor (s : State) : (hwResetStep s).cursor = 1 := rfl
@[simp] theorem hwResetStep_xfer (s : State) : (hwResetStep s).xfer = .idle := rfl
@[simp] theorem hwResetStep_phase (s : State) : (hwResetStep s).phase = .armed := rfl
@[simp] theorem hwResetStep_csActive (s : State) : (hwResetStep s).csActive = false := rfl
@[simp] theorem hwResetStep_rxSuppressed (s : State) : (hwResetStep s).rxSuppressed = false := rfl
@[simp] theorem hwResetStep_cplPending (s : State) : (hwResetStep s).cplPending = false := rfl
@[simp] theorem hwResetStep_faults (s : State) : (hwResetStep s).faults = ⟨false, false, false⟩ := rfl
@[simp] theorem hwResetStep_txBusy (s : State) : (hwResetStep s).txBusy = s.txBusy := rfl
@[simp] theorem hwResetStep_turns (s : State) : (hwResetStep s).turns = s.turns := rfl
@[simp] theorem hwResetStep_rsp (s : State) : (hwResetStep s).rsp = none := rfl
@[simp] theorem hwResetStep_trace (s : State) : (hwResetStep s).trace = s.trace ++ [.hwReset] := rfl
@[simp] theorem hwResetStep_wireSent (s : State) : (hwResetStep s).wireSent = 0 := rfl
@[simp] theorem hwResetStep_draws (s : State) : (hwResetStep s).draws = s.draws := rfl
@[simp] theorem hwResetStep_choices (s : State) : (hwResetStep s).choices = s.choices := rfl
@[simp] theorem hwResetStep_stream (s : State) : (hwResetStep s).stream = s.stream := rfl

end hwResetStep

end Sys2Proof.Machine
end

