-- ==== Sys2Proof/Laws/Ops.lean ====
section
/-! SUPPORT. What each shared operation and each meaning can do, said once: the lemmas that proofs cite
instead of unfolding them. -/

namespace Sys2Proof.Machine

@[simp] theorem andThen_next (s : State) (k : State → Result) : andThen (.next s) k = k s := rfl

theorem storeCell_inside {i : Nat} {s : State} (v : Word) (h : i < s.params.capacity) :
    storeCell i v s = .next { s with mem := Memory.writeCell s.mem i v } := if_pos h

theorem storeCell_outside {i : Nat} {s : State} (v : Word) (h : ¬ i < s.params.capacity) :
    storeCell i v s = .fault (.outsideBuffer (laneAddr i 0)) := if_neg h

theorem whileIdle_idle {k : State → Result} {s : State} (h : s.xfer = .idle) :
    whileIdle k s = k s := by simp [whileIdle, h]

theorem whileIdle_busy {k : State → Result} {s : State} (h : s.xfer = .busy) :
    whileIdle k s = .next (raise .concurrentAccess s) := by simp [whileIdle, h]

theorem TransferState.idle_or_busy (x : TransferState) : x = .idle ∨ x = .busy := by
  cases x <;> simp

theorem execBufReset_idle {s : State} (h : s.xfer = .idle) :
    execBufReset s = .next (respond .ok 0#32 { s with cursor := 1 }) := whileIdle_idle h

theorem execAppend_full {s : State} {d : Word} (h : s.xfer = .idle)
    (hc : s.cursor = s.params.capacity) : execAppend d s = .next (raise .bufferFull s) := by
  simp [execAppend, whileIdle_idle h, hc]

theorem execAppend_room {s : State} {d : Word} (h : s.xfer = .idle)
    (hc : s.cursor < s.params.capacity) :
    execAppend d s = .next (respond .ok 0#32
      { s with mem := Memory.writeCell s.mem s.cursor d, cursor := s.cursor + 1 }) := by
  have hne : s.cursor ≠ s.params.capacity := by omega
  simp [execAppend, whileIdle_idle h, hne, appendCell, storeCell_inside d hc]

theorem execPrefix_idle {s : State} {d : Word} (h : s.xfer = .idle) (hc : 0 < s.params.capacity) :
    execPrefix d s = .next (respond .ok 0#32 { s with mem := Memory.writeCell s.mem 0 d }) := by
  simp [execPrefix, whileIdle_idle h, prefixCellIndex, storeCell_inside d hc]

theorem execStart_empty {s : State} (h : s.xfer = .idle) (hc : s.cursor ≤ 1) :
    execStart s = .next (raise .emptyTransfer s) := by
  simp [execStart, whileIdle_idle h, hc]

theorem execStart_arms {s : State} (h : s.xfer = .idle) (hc : ¬ s.cursor ≤ 1) :
    execStart s = .next (respond .ok 0#32 (armBurst (clearStaleLatch s))) := by
  simp [execStart, whileIdle_idle h, hc]

theorem execBufReset_busy {s : State} (h : s.xfer = .busy) :
    execBufReset s = .next (raise .concurrentAccess s) := whileIdle_busy h

theorem execAppend_busy {s : State} {d : Word} (h : s.xfer = .busy) :
    execAppend d s = .next (raise .concurrentAccess s) := whileIdle_busy h

theorem execPrefix_busy {s : State} {d : Word} (h : s.xfer = .busy) :
    execPrefix d s = .next (raise .concurrentAccess s) := whileIdle_busy h

theorem execStart_busy {s : State} (h : s.xfer = .busy) :
    execStart s = .next (raise .concurrentAccess s) := whileIdle_busy h

/-- An index past the buffer, which only a cursor past CAPACITY gives APPEND. -/
theorem execAppend_outside {s : State} {d : Word} (h : s.xfer = .idle)
    (hc : s.params.capacity < s.cursor) :
    execAppend d s = .fault (.outsideBuffer (laneAddr s.cursor 0)) := by
  have hne : s.cursor ≠ s.params.capacity := by omega
  have hlt : ¬ s.cursor < s.params.capacity := by omega
  simp [execAppend, whileIdle_idle h, hne, appendCell, storeCell_outside d hlt, andThen]

/-- A buffer of no cells has no prefix cell. -/
theorem execPrefix_outside {s : State} {d : Word} (h : s.xfer = .idle)
    (hc : ¬ 0 < s.params.capacity) :
    execPrefix d s = .fault (.outsideBuffer (laneAddr 0 0)) := by
  simp [execPrefix, whileIdle_idle h, prefixCellIndex, storeCell_outside d hc, andThen]

/-- Everything a command that answers a next state can have done. -/
theorem exec_next_cases {i : Instr} {s t : State} (h : exec i s = .next t) :
    (s.xfer = .busy ∧ (i = .bufReset ∨ i = .start ∨ (∃ d, i = .append d) ∨ ∃ d, i = .prefixCell d) ∧
      t = raise .concurrentAccess s) ∨
    (i = .reserved000 ∧ t = raise .illegal s) ∨
    (i = .bufReset ∧ s.xfer = .idle ∧ t = respond .ok 0#32 { s with cursor := 1 }) ∨
    (∃ d, i = .append d ∧ s.xfer = .idle ∧ s.cursor = s.params.capacity ∧
      t = raise .bufferFull s) ∨
    (∃ d, i = .append d ∧ s.xfer = .idle ∧ s.cursor < s.params.capacity ∧
      t = respond .ok 0#32
        { s with mem := Memory.writeCell s.mem s.cursor d, cursor := s.cursor + 1 }) ∨
    (∃ d, i = .prefixCell d ∧ s.xfer = .idle ∧ 0 < s.params.capacity ∧
      t = respond .ok 0#32 { s with mem := Memory.writeCell s.mem 0 d }) ∨
    (i = .start ∧ s.xfer = .idle ∧ s.cursor ≤ 1 ∧ t = raise .emptyTransfer s) ∨
    (i = .start ∧ s.xfer = .idle ∧ 2 ≤ s.cursor ∧
      t = respond .ok 0#32 (armBurst (clearStaleLatch s))) ∨
    ((i = .isBusy ∨ i = .length ∨ i = .readFaults) ∧ ∃ d, t = respond .ok d s) := by
  have inj : ∀ {a b : State}, (Host.Outcome.next a : Result) = .next b → b = a :=
    fun e => by cases e; rfl
  rcases TransferState.idle_or_busy s.xfer with hx | hx
  case inr =>
    cases i with
    | reserved000 => exact .inr (.inl ⟨rfl, inj h⟩)
    | bufReset => exact .inl ⟨hx, .inl rfl, inj ((execBufReset_busy hx).symm.trans h)⟩
    | append d =>
      exact .inl ⟨hx, .inr (.inr (.inl ⟨d, rfl⟩)), inj ((execAppend_busy hx).symm.trans h)⟩
    | prefixCell d =>
      exact .inl ⟨hx, .inr (.inr (.inr ⟨d, rfl⟩)), inj ((execPrefix_busy hx).symm.trans h)⟩
    | start => exact .inl ⟨hx, .inr (.inl rfl), inj ((execStart_busy hx).symm.trans h)⟩
    | isBusy | length | readFaults => simpa using ⟨_, inj h⟩
  case inl =>
    cases i with
    | reserved000 => exact .inr (.inl ⟨rfl, inj h⟩)
    | bufReset => exact .inr (.inr (.inl ⟨rfl, hx, inj ((execBufReset_idle hx).symm.trans h)⟩))
    | append d =>
      rcases Nat.lt_trichotomy s.cursor s.params.capacity with hc | hc | hc
      · have := inj ((execAppend_room hx hc).symm.trans h)
        simp [hx, hc, this]
      · have := inj ((execAppend_full hx hc).symm.trans h)
        simp [hx, hc, this]
      · have := (execAppend_outside hx hc).symm.trans h
        cases this
    | prefixCell d =>
      by_cases hc : 0 < s.params.capacity
      · have := inj ((execPrefix_idle hx hc).symm.trans h)
        simp [hx, hc, this]
      · have := (execPrefix_outside hx hc).symm.trans h
        cases this
    | start =>
      by_cases hc : s.cursor ≤ 1
      · have := inj ((execStart_empty hx hc).symm.trans h)
        simp [hx, hc, this]
      · have := inj ((execStart_arms hx hc).symm.trans h)
        have h2 : 2 ≤ s.cursor := by omega
        simp [hx, h2, this]
    | isBusy | length | readFaults => simpa [hx] using ⟨_, inj h⟩

/-- ACK's effect while a completion is due. -/
theorem ackEffect_due {s : State} (hx : s.xfer = .busy) (hp : s.phase = .armed) :
    ackEffect s = { ackLatch s with phase := .drain } := by
  simp [ackEffect, hx, hp]

/-- ACK's effect on a completion that belongs to no armed, unacknowledged burst. -/
theorem ackEffect_spurious {s : State} (h : ¬ (s.xfer = .busy ∧ s.phase = .armed)) :
    ackEffect s = raise .spuriousCompletion (ackLatch s) := by
  unfold ackEffect
  cases hx : s.xfer <;> cases hp : s.phase <;> simp_all

/-- The two effects of ACK (R81). -/
theorem ackEffect_cases (s : State) :
    ((s.xfer = .busy ∧ s.phase = .armed) ∧ ackEffect s = { ackLatch s with phase := .drain }) ∨
    (¬ (s.xfer = .busy ∧ s.phase = .armed) ∧
      ackEffect s = raise .spuriousCompletion (ackLatch s)) := by
  by_cases h : s.xfer = .busy ∧ s.phase = .armed
  · exact .inl ⟨h, ackEffect_due h.1 h.2⟩
  · exact .inr ⟨h, ackEffect_spurious h⟩

/-- The stale-latch path of START is taken or not (R75). -/
theorem clearStaleLatch_cases (s : State) :
    (s.cplPending = false ∧ clearStaleLatch s = s) ∨
    (s.cplPending = true ∧ clearStaleLatch s = raise .spuriousCompletion (ackLatch s)) := by
  unfold clearStaleLatch
  cases s.cplPending <;> simp

theorem finalizeEnabled_iff {s : State} :
    finalizeEnabled s = true ↔ s.xfer = .busy ∧ s.phase = .drain ∧ s.txBusy = false := by
  simp [finalizeEnabled, and_assoc]

theorem wireEnabled_iff {s : State} :
    wireEnabled s = true ↔ s.xfer = .busy ∧ s.phase = .armed ∧ s.cplPending = false ∧
      s.wireSent < s.armLen := by
  simp [wireEnabled, and_assoc]

/-- What SEQ acting on its own can do. -/
theorem seqStep_cases (s : State) :
    (∃ n, ackEnabled s = true ∧ seqStep s = ackEffect { s with choices := n }) ∨
    (∃ n, finalizeEnabled s = true ∧ seqStep s = releaseBurst { s with choices := n }) ∨
    (ackEnabled s = false ∧ finalizeEnabled s = false ∧ seqStep s = s) := by
  unfold seqStep
  cases ha : ackEnabled s <;> cases hf : finalizeEnabled s
  · exact .inr (.inr ⟨rfl, rfl, rfl⟩)
  · exact .inr (.inl ⟨s.choices, rfl, rfl⟩)
  · exact .inl ⟨s.choices, rfl, rfl⟩
  · cases Config.seqAcksFirst s.stream s.choices
    · exact .inr (.inl ⟨s.choices + 1, rfl, by simp⟩)
    · exact .inl ⟨s.choices + 1, rfl, by simp⟩

@[simp] theorem runTurn_command (w : CmdWord) (s : State) :
    runTurn (.command w) s = exec (decodeCommand w) s := rfl
@[simp] theorem runTurn_pollIdle (s : State) : runTurn .pollIdle s = pollStep s := rfl
@[simp] theorem runTurn_seq (s : State) : runTurn .seq s = .next (seqStep s) := rfl
@[simp] theorem runTurn_ack (s : State) : runTurn .ack s = .next (ackStep s) := rfl
@[simp] theorem runTurn_finalize (s : State) : runTurn .finalize s = .next (finalizeStep s) := rfl
@[simp] theorem runTurn_wire (s : State) : runTurn .wire s = wireStep s := rfl
@[simp] theorem runTurn_complete (s : State) : runTurn .complete s = .next (completeStep s) := rfl
@[simp] theorem runTurn_txBusy (l : Bool) (s : State) :
    runTurn (.txBusy l) s = .next (txBusyStep l s) := rfl
@[simp] theorem runTurn_hwReset (s : State) : runTurn .hwReset s = .next (hwResetStep s) := rfl

/-- What a WIRE turn that answers a next state can have done. -/
theorem wireStep_next_cases {s t : State} (h : wireStep s = .next t) :
    (wireEnabled s = true ∧ s.armAddr + s.wireSent < bufferBytes s.params ∧
      t = { emit (.wire (Memory.burstByte s.mem (s.armAddr + s.wireSent) s.stream s.draws)) s with
            wireSent := s.wireSent + 1, draws := s.draws + 1 }) ∨
    (wireEnabled s = false ∧ t = s) := by
  unfold wireStep at h
  split at h
  · next he =>
    simp only at h
    split at h
    · next ha => cases h; exact .inl ⟨he, ha, rfl⟩
    · cases h
  · next he => cases h; exact .inr ⟨by simpa using he, rfl⟩

/-- What one pass of POLL_IDLE does. -/
theorem pollStep_eq (s : State) :
    pollStep s = .next (if statusRead s = 0#32 then respond .ok (statusRead s) s
      else { respond .ok (statusRead s) s with turns := pollRound s.turns }) := by
  show Host.Outcome.next (if pollAgain (respond .ok (statusRead s) s) then _ else _) = _
  by_cases h : statusRead s = 0#32 <;> simp [pollAgain, h]

theorem pollStep_cases (s : State) :
    pollStep s = .next (respond .ok (statusRead s) s) ∨
    pollStep s = .next { respond .ok (statusRead s) s with turns := pollRound s.turns } := by
  rw [pollStep_eq]
  split
  · exact .inl rfl
  · exact .inr rfl

/-- Everything a turn that answers a next state can have done. -/
theorem runTurn_next_cases {t : Turn} {s u : State} (h : runTurn t s = .next u) :
    (∃ w, t = .command w ∧ exec (decodeCommand w) s = .next u) ∨
    (t = .pollIdle ∧ ∃ ts, u = { respond .ok (statusRead s) s with turns := ts }) ∨
    ((t = .seq ∨ t = .ack) ∧ s.cplPending = true ∧ ∃ n, u = ackEffect { s with choices := n }) ∨
    ((t = .seq ∨ t = .finalize) ∧ finalizeEnabled s = true ∧
      ∃ n, u = releaseBurst { s with choices := n }) ∨
    ((t = .seq ∨ t = .ack ∨ t = .finalize ∨ t = .wire) ∧ u = s) ∨
    (t = .wire ∧ wireEnabled s = true ∧ s.armAddr + s.wireSent < bufferBytes s.params ∧
      u = { emit (.wire (Memory.burstByte s.mem (s.armAddr + s.wireSent) s.stream s.draws)) s with
            wireSent := s.wireSent + 1, draws := s.draws + 1 }) ∨
    (t = .complete ∧ u = completeStep s) ∨
    (∃ l, t = .txBusy l ∧ u = txBusyStep l s) ∨
    (t = .hwReset ∧ u = hwResetStep s) := by
  have inj : ∀ {a b : State}, (Host.Outcome.next a : Result) = .next b → b = a :=
    fun e => by cases e; rfl
  cases t with
  | command w => exact .inl ⟨w, rfl, h⟩
  | pollIdle =>
    rcases pollStep_cases s with e | e
    · exact .inr (.inl ⟨rfl, s.turns, inj (e.symm.trans h)⟩)
    · exact .inr (.inl ⟨rfl, _, inj (e.symm.trans h)⟩)
  | seq =>
    have e : u = seqStep s := inj h
    rcases seqStep_cases s with ⟨n, ha, hs⟩ | ⟨n, hf, hs⟩ | ⟨-, -, hs⟩
    · exact .inr (.inr (.inl ⟨.inl rfl, ha, n, e.trans hs⟩))
    · exact .inr (.inr (.inr (.inl ⟨.inl rfl, hf, n, e.trans hs⟩)))
    · exact .inr (.inr (.inr (.inr (.inl ⟨.inl rfl, e.trans hs⟩))))
  | ack =>
    have e : u = ackStep s := inj h
    cases ha : s.cplPending
    · exact .inr (.inr (.inr (.inr (.inl ⟨.inr (.inl rfl), by
        simp [e, ackStep, ackEnabled, ha]⟩))))
    · exact .inr (.inr (.inl ⟨.inr rfl, rfl, s.choices, e.trans (if_pos ha)⟩))
  | finalize =>
    have e : u = finalizeStep s := inj h
    cases hf : finalizeEnabled s
    · exact .inr (.inr (.inr (.inr (.inl ⟨.inr (.inr (.inl rfl)), by
        simp [e, finalizeStep, hf]⟩))))
    · exact .inr (.inr (.inr (.inl ⟨.inr rfl, rfl, s.choices, e.trans (if_pos hf)⟩)))
  | wire =>
    rcases wireStep_next_cases h with ⟨he, ha, hu⟩ | ⟨he, hu⟩
    · simp [he, ha, hu]
    · simp [hu]
  | complete => simpa using inj h
  | txBusy l => simpa using inj h
  | hwReset => simpa using inj h

/-- With a turn placed, that turn is taken. -/
theorem step_turn {s : State} {t : Turn} {rest : List Turn} (h : s.turns = t :: rest) :
    step s = runTurn t { s with turns := rest, rsp := none } := by
  simp [step, nextTurn, h]

/-- With nothing placed SEQ acts on its own. -/
theorem step_nothing_placed {s : State} (h : s.turns = []) :
    step s = .next (seqStep { s with rsp := none }) := by
  simp [step, nextTurn, h, runTurn]

/-- Every step is one turn, SEQ's own where nothing is placed, taken with the last response gone. -/
theorem step_cases (s : State) : ∃ t rest,
    step s = runTurn t { s with turns := rest, rsp := none } ∧ (nextTurn s).1 = t ∧
    ((s.turns = [] ∧ t = .seq) ∨ s.turns = t :: rest) := by
  cases h : s.turns with
  | nil => exact ⟨.seq, [], by simp [step, nextTurn, h], by simp [nextTurn, h], .inl ⟨rfl, rfl⟩⟩
  | cons t rest => exact ⟨t, rest, step_turn h, by simp [nextTurn, h], .inr rfl⟩

end Sys2Proof.Machine
end

