-- ==== Sys2Proof/Laws/PerInstr.lean ====
section
/-! SUPPORT. The statements made of every command as syntax, one lemma per constructor. -/

namespace Sys2Proof.Laws.OpcodeRow

/-- The command's word is selected by the match and mask of the table row that has its mnemonic
(spec/30_encoding.md R62). -/
def Statement (i : Instr) : Prop :=
  ∃ r ∈ opTable, r.mnemonic = mnemonicOf i ∧ r.selects (encode i) = true

/-- The mask of every row keeps the opcode field alone. -/
theorem masked (op : BitVec 3) (d : Word) :
    ((op ++ d : CmdWord) &&& 0x700000000#35) = (op ++ 0#32 : CmdWord) := by
  have hm : (0x700000000#35 : CmdWord) = (0b111#3 ++ 0#32 : CmdWord) := by decide
  rw [hm]
  apply BitVec.eq_of_getLsbD_eq
  intro n hn
  simp only [BitVec.getLsbD_and, BitVec.getLsbD_append]
  by_cases h : n < 32
  · simp [h]
  · have h3 : n - 32 = 0 ∨ n - 32 = 1 ∨ n - 32 = 2 := by omega
    rcases h3 with e | e | e <;> simp [h, e]

theorem reserved000 : Statement .reserved000 := by unfold Statement; decide
theorem bufReset : Statement .bufReset := by unfold Statement; decide

theorem append (d : Word) : Statement (.append d) :=
  ⟨⟨"APPEND", 0x200000000#35, 0x700000000#35⟩, by decide, rfl, by
    show (((0b010#3 ++ d : CmdWord) &&& 0x700000000#35) == 0x200000000#35) = true
    rw [masked]; decide⟩

theorem prefixCell (d : Word) : Statement (.prefixCell d) :=
  ⟨⟨"PREFIX", 0x300000000#35, 0x700000000#35⟩, by decide, rfl, by
    show (((0b011#3 ++ d : CmdWord) &&& 0x700000000#35) == 0x300000000#35) = true
    rw [masked]; decide⟩

theorem start : Statement .start := by unfold Statement; decide
theorem isBusy : Statement .isBusy := by unfold Statement; decide
theorem length : Statement .length := by unfold Statement; decide
theorem readFaults : Statement .readFaults := by unfold Statement; decide

end Sys2Proof.Laws.OpcodeRow
end

