-- ==== Sys2Proof/Laws/Safety.lean ====
section
/-! SUPPORT. Small lemmas about the notions of Safety.lean and the widths of Config.lean. -/

namespace Sys2Proof.Machine

@[simp] theorem runSteps_zero (s : State) : runSteps 0 s = .next s := rfl

theorem runSteps_succ {s t : State} (k : Nat) (h : step s = .next t) :
    runSteps (k + 1) s = runSteps k t := by
  simp [runSteps, h]

/-- `runSteps` is the host's run of the machine. -/
theorem runSteps_eq_core_run (k : Nat) (s : State) :
    runSteps k s = Host.Core.run Sys2Proof.core k s := by
  induction k generalizing s with
  | zero => rfl
  | succ k ih =>
    have e : Sys2Proof.core.step s = step s := rfl
    simp only [runSteps, Host.Core.run, e]
    cases step s <;> simp only [andThen, ih] <;> rfl

theorem lt_two_pow_bitWidth (n : Nat) : n < 2 ^ Config.bitWidth n := Nat.lt_log2_self

theorem bitWidth_le_32 {n : Nat} (h : n < 2 ^ 32) : Config.bitWidth n ≤ 32 := by
  unfold Config.bitWidth
  by_cases h0 : n = 0
  · subst h0; decide
  · have := (Nat.log2_lt h0).2 h
    omega

/-- The burst descriptor fits the latches (R30). -/
theorem burst_fits_latches {p : Config.Params} {c : Nat} (hp : p.wf) (h1 : 1 ≤ c)
    (hc : c ≤ p.capacity) : burstAddr p < 2 ^ p.latchBits ∧ burstLen p c < 2 ^ p.latchBits := by
  obtain ⟨h2, h3, -, -⟩ := hp
  have hw : 4 * p.capacity - 1 < 2 ^ p.latchBits := lt_two_pow_bitWidth _
  unfold burstAddr burstLen
  omega

/-- The invariants speak of the engine's own fields alone: not of the inputs, the outputs or the counters. -/
theorem Inv.congr {s t : State} (hi : Inv s) (hparams : t.params = s.params) (hmem : t.mem = s.mem)
    (hcursor : t.cursor = s.cursor) (hxfer : t.xfer = s.xfer) (hphase : t.phase = s.phase)
    (hcs : t.csActive = s.csActive) (hrx : t.rxSuppressed = s.rxSuppressed)
    (haddr : t.armAddr = s.armAddr) (hlen : t.armLen = s.armLen)
    (hwire : t.wireSent = s.wireSent) : Inv t := by
  obtain ⟨h1, h2, h3, h4, h5, h6, h7, h8, h9, h10⟩ := hi
  constructor <;>
    simp only [hparams, hmem, hcursor, hxfer, hphase, hcs, hrx, haddr, hlen, hwire] <;> assumption

/-- Instances powered on together draw from streams of their own: no two share one (log 21). -/
theorem powerOnInstances_streams_nodup (ps : List Config.Params) :
    ((powerOnInstances ps).map State.stream).Nodup := by
  have e : (powerOnInstances ps).map State.stream = List.range ps.length := by
    simp [powerOnInstances, Function.comp_def, State.powerOn, List.range_eq_range']
  exact e ▸ List.nodup_range

@[simp] theorem bytesLeft_iff {s : State} :
    bytesLeft s = true ↔ s.xfer = .busy ∧ s.wireSent < s.armLen := by
  simp [bytesLeft]

/-- While a drain is held FINALIZE is disabled, and so is WIRE. -/
theorem Draining.finalize_disabled {s : State} (h : Draining s) : finalizeEnabled s = false := by
  simp [finalizeEnabled, h.2.2]

theorem Draining.wire_disabled {s : State} (h : Draining s) : wireEnabled s = false := by
  simp [wireEnabled, h.2.1]

theorem Frame.after_append (f : Option Frame) (a b : List Event) :
    Frame.after f (a ++ b) = Frame.after (Frame.after f a) b := by
  induction a generalizing f with
  | nil => cases f <;> simp [Frame.after]
  | cons x a ih =>
    cases f with
    | none => simp [Frame.after]
    | some f => simp [Frame.after, ih]

end Sys2Proof.Machine
end

