-- ==== Sys2Proof/Laws/Words.lean ====
section
/-! SUPPORT. The two fields of a command word (spec/30_encoding.md R60): taking them out of a word put together,
and putting a word together from them. -/

namespace Sys2Proof

theorem dataField_append (op : BitVec 3) (d : Word) : dataField (op ++ d) = d := by
  apply BitVec.eq_of_getLsbD_eq
  intro n hn
  simp only [dataField, BitVec.getLsbD_extractLsb', BitVec.getLsbD_append]
  simp [hn]

theorem opField_append (op : BitVec 3) (d : Word) : opField (op ++ d) = op := by
  apply BitVec.eq_of_getLsbD_eq
  intro n hn
  simp only [opField, BitVec.getLsbD_extractLsb', BitVec.getLsbD_append]
  simp [hn]

theorem opField_append_dataField (w : CmdWord) : opField w ++ dataField w = w := by
  apply BitVec.eq_of_getLsbD_eq
  intro n hn
  simp only [opField, dataField, BitVec.getLsbD_append, BitVec.getLsbD_extractLsb']
  by_cases h : n < 32
  · simp [h]
  · have h3 : n - 32 < 3 := by omega
    have e : 32 + (n - 32) = n := by omega
    simp [h, h3, e]

/-- The opcode field from the three bits the decoder looks at (R62). -/
theorem opField_bits (w : CmdWord) :
    opField w = BitVec.ofBool (w.getLsbD 34) ++ BitVec.ofBool (w.getLsbD 33)
      ++ BitVec.ofBool (w.getLsbD 32) := by
  apply BitVec.eq_of_getLsbD_eq
  intro n hn
  have h3 : n = 0 ∨ n = 1 ∨ n = 2 := by omega
  rcases h3 with rfl | rfl | rfl <;>
    simp only [opField, BitVec.getLsbD_extractLsb', BitVec.getLsbD_append] <;> simp

end Sys2Proof
end

