-- ==== Sys2Proof/Tests/Slice0.lean ====
section
/-! SUPPORT. Tests. Expected results are the vectors of spec/95_test_vectors.md (named in each comment) or the
examples of the rules; the witness theorems show, for every statement with hypotheses, concrete states and
operands that meet them. -/

namespace Sys2Proof.Tests

open Sys2Proof.Machine

/-! ## States to test on -/

/-- The instance of the spec with some non-zero sentinel and some base in the place of the OPEN ones. -/
def tp : Config.Params := ⟨1025, 3, 0x5A#8, 0x1000, true⟩

/-- After reset: `{Idle/ARMED, 1, 0, 0, 0, FAULT=000}`. -/
def idle1 : State := State.powerOn tp 0

/-- Idle with the prefix and one payload word written: the buffer of V-MEM-2. -/
def loaded : State :=
  { idle1 with
    mem := Memory.writeCell (Memory.writeCell [] 0 0xAABBCC00#32) 1 0x11223344#32, cursor := 2 }

/-- The same, Busy/ARMED after START. -/
def busyArmed : State :=
  { loaded with
    xfer := .busy, csActive := true, rxSuppressed := true, armAddr := 1, armLen := 7
    trace := [.csAssert, .rxSuppress, .arm 0x1001 7] }

/-- The same in DRAIN. -/
def busyDrain : State :=
  { busyArmed with
    phase := .drain, wireSent := 7, trace := busyArmed.trace ++ [.complete, .cplAck] }

/-- Idle at a cursor of one's choice; the cells do not matter to the command tested. -/
def idleAt (c : Nat) : State := { idle1 with cursor := c }

/-- A check of the state a result holds. -/
def holds (r : Result) (f : State → Bool) : Bool :=
  match r with
  | .next s => f s
  | .fault _ => false
  | .refused _ => false

/-! ## Well-formedness: one ill-formed term for each check -/

theorem test_wf_accepts : tp.wf ∧ AsmLine.wf (.append 0xFFFFFFFF) = true := by decide
theorem test_wf_capacity_one : ¬ ({ tp with capacity := 1 } : Config.Params).wf := by decide
theorem test_wf_four_prefix_bytes : ¬ ({ tp with prefixBytes := 4 } : Config.Params).wf := by decide
theorem test_wf_zero_sentinel : ¬ ({ tp with busySentinel := 0#8 } : Config.Params).wf := by decide
theorem test_wf_capacity_past_length :
    ¬ ({ tp with capacity := 2 ^ 30 + 1 } : Config.Params).wf := by decide
theorem test_wf_append_operand : AsmLine.wf (.append 0x100000000) = false := by decide
theorem test_wf_prefix_operand : AsmLine.wf (.prefixCell 0x100000000) = false := by decide
theorem test_wf_reserved_word : AsmLine.wf (.reserved 0x100000000) = false := by decide

/-! ## Decoding: words of the opcode map, bit by bit -/

theorem test_decode_reserved000 :
    decodeCommand 0b00000010010001101000101011001111000#35 = .reserved000 := by decide
theorem test_decode_bufReset :
    decodeCommand 0b00111011110101011011011111011101111#35 = .bufReset := by decide
theorem test_decode_append :
    decodeCommand 0b01000010001001000100011001101000100#35 = .append 0x11223344#32 := by decide
theorem test_decode_prefixCell :
    decodeCommand 0b01110101010101110111100110000000000#35 = .prefixCell 0xAABBCC00#32 := by decide
theorem test_decode_start :
    decodeCommand 0b10000000000000000000000000000000000#35 = .start := by decide
theorem test_decode_isBusy :
    decodeCommand 0b10100000000000000000000000000000000#35 = .isBusy := by decide
theorem test_decode_length :
    decodeCommand 0b11000000000000000000000000000000000#35 = .length := by decide
theorem test_decode_readFaults :
    decodeCommand 0b11100000000000000000000000000000000#35 = .readFaults := by decide
theorem test_decode_bit_35_refused : decodeTableWord 40 0x800000000 = none := by decide
theorem test_encode_append : encode (.append 0x11223344#32) = 0x211223344#35 := by decide

/-! ## The commands (vectors of 95_test_vectors.md L2) -/

/-- V-RESET-1, first command. -/
theorem test_bufReset_idle : holds (exec .bufReset (idleAt 5)) (fun t =>
    t.cursor == 1 && t.rsp == some ⟨.ok, 0#32⟩) = true := by decide
/-- V-RESET-3. -/
theorem test_bufReset_busy : holds (exec .bufReset { busyArmed with cursor := 3 }) (fun t =>
    t.cursor == 3 && t.rsp == some ⟨.concurrentAccess, 0#32⟩
      && t.faults == ⟨true, false, false⟩) = true := by decide
/-- V-APPEND-1. -/
theorem test_append_first : holds (exec (.append 0x11223344#32) idle1) (fun t =>
    t.cursor == 2 && Memory.readCell t.mem 1 == some 0x11223344#32
      && t.rsp == some ⟨.ok, 0#32⟩) = true := by decide
/-- V-APPEND-5: DEBUG_ASSERT = false. -/
theorem test_append_busy_release :
    holds (exec (.append 1#32) { busyArmed with params := { tp with debugAssert := false } }) (fun t =>
      t.mem == busyArmed.mem && t.cursor == 2 && t.faults == ⟨false, false, false⟩
        && t.rsp == some ⟨.concurrentAccess, 0#32⟩) = true := by decide
/-- V-PREFIX-1. -/
theorem test_prefix_idle : holds (exec (.prefixCell 0xAABBCC00#32) (idleAt 3)) (fun t =>
    t.cursor == 3 && Memory.readCell t.mem 0 == some 0xAABBCC00#32) = true := by decide
/-- V-PREFIX-2. -/
theorem test_prefix_busy : holds (exec (.prefixCell 0#32) busyArmed) (fun t =>
    t.mem == busyArmed.mem && t.faults.conc) = true := by decide
/-- V-LENGTH-3. -/
theorem test_length_full : holds (exec .length (idleAt 1025)) (fun t =>
    t.rsp == some ⟨.ok, 0x00001000#32⟩) = true := by decide
/-- V-LENGTH-4. -/
theorem test_length_busy : holds (exec .length { busyArmed with cursor := 5 }) (fun t =>
    t.rsp == some ⟨.ok, 0x00000010#32⟩) = true := by decide
/-- V-START-6: the stale latch. -/
theorem test_start_stale : holds (exec .start { idleAt 3 with cplPending := true }) (fun t =>
    t.trace == [.cplAck, .csAssert, .rxSuppress, .arm 0x1001 11] && !t.cplPending
      && t.faults == ⟨false, true, false⟩ && t.xfer == .busy && t.phase == .armed) = true := by decide
/-- V-START-7: P = 0. -/
theorem test_start_no_prefix :
    holds (exec .start { idleAt 5 with params := { tp with prefixBytes := 0 } }) (fun t =>
      t.trace == [.csAssert, .rxSuppress, .arm 0x1004 16] && t.csActive
        && t.rxSuppressed) = true := by decide
/-- V-ISBUSY-3, with the sentinel of `tp`. -/
theorem test_isBusy_drain : holds (exec .isBusy busyDrain) (fun t =>
    t.rsp == some ⟨.ok, 0x0000005A#32⟩) = true := by decide
/-- V-ISBUSY-1. -/
theorem test_isBusy_reset : holds (exec .isBusy State.reset) (fun t =>
    t.rsp == some ⟨.ok, 0#32⟩) = true := by decide
/-- V-FAULTS-2. -/
theorem test_readFaults : holds (exec .readFaults { idle1 with faults := ⟨true, false, true⟩ }) (fun t =>
    t.rsp == some ⟨.ok, 0x00000005#32⟩ && t.faults == ⟨true, false, true⟩) = true := by decide
/-- V-RSV-2. -/
theorem test_reserved_busy : holds (exec .reserved000 busyArmed) (fun t =>
    t.rsp == some ⟨.illegal, 0#32⟩ && t.faults == ⟨false, false, true⟩ && t.xfer == .busy
      && t.trace == busyArmed.trace) = true := by decide

/-! ## SEQ, PLATFORM and the byte view -/

/-- V-ACK-3. -/
theorem test_ack_in_drain : holds (runTurn .ack { busyDrain with cplPending := true }) (fun t =>
    t.phase == .drain && !t.cplPending && t.faults == ⟨false, true, false⟩
      && t.trace == busyDrain.trace ++ [.cplAck]) = true := by decide
/-- V-FIN-1. -/
theorem test_finalize : holds (runTurn .finalize busyDrain) (fun t =>
    t.xfer == .idle && t.phase == .armed && t.cursor == 1 && !t.csActive && !t.rxSuppressed
      && t.trace == busyDrain.trace ++ [.rxRestore, .csDeassert]) = true := by decide
/-- V-FIN-2: the hold. -/
theorem test_finalize_holds : holds (runTurn .finalize { busyDrain with txBusy := true }) (fun t =>
    t.xfer == .busy && t.phase == .drain && t.trace == busyDrain.trace) = true := by decide
/-- V-HWR-1. -/
theorem test_hardware_reset :
    holds (runTurn .hwReset { busyDrain with cursor := 9, faults := ⟨true, true, false⟩ }) (fun t =>
      t.cursor == 1 && t.xfer == .idle && t.phase == .armed && !t.csActive && !t.rxSuppressed
        && t.faults == ⟨false, false, false⟩ && t.trace == busyDrain.trace ++ [.hwReset]
        && t.mem == []) = true := by decide
/-- The second byte of V-MEM-2's burst. -/
theorem test_wire_second_byte : holds (runTurn .wire { busyArmed with wireSent := 1 }) (fun t =>
    t.trace == busyArmed.trace ++ [.wire 0xBB#8] && t.wireSent == 2) = true := by decide
/-- V-MEM-2. -/
theorem test_memRead_prefix_and_word :
    memRead loaded 1 7 = [0xCC#8, 0xBB#8, 0xAA#8, 0x44#8, 0x33#8, 0x22#8, 0x11#8] := by decide
/-- V-MEM-3: the prefix bytes are free, the payload's are not. -/
theorem test_memRead_unwritten_prefix :
    (memRead { idle1 with mem := Memory.writeCell [] 1 0x11223344#32 } 1 7).drop 3 =
      [0x44#8, 0x33#8, 0x22#8, 0x11#8] := by decide
/-- V-MEM-4. -/
theorem test_largest_burst : burstAddr tp = 1 ∧ burstLen tp 1025 = 4099 := by decide

/-! ## Witnesses: the hypotheses of every statement are met -/

theorem loaded_inv : Inv loaded where
  params := by decide
  memWf := by decide
  memInside := by decide
  wholeCells := by decide
  payloadWritten := by decide
  cursorRange := by decide
  latchWidths := by decide
  idle := by decide
  busy := by decide
  wireProgress := by decide

theorem busyArmed_inv : Inv busyArmed where
  params := by decide
  memWf := by decide
  memInside := by decide
  wholeCells := by decide
  payloadWritten := by decide
  cursorRange := by decide
  latchWidths := by decide
  idle := by decide
  busy := by decide
  wireProgress := by decide

theorem witness_DecodeAndEncodeAgree :
    operandOf (decodeCommand 0x211223344#35) = dataField 0x211223344#35 := by decide
theorem witness_EveryWordSelectsExactlyItsRow :
    (⟨"START", 0x400000000#35, 0x700000000#35⟩ : OpRow) ∈ opTable ∧
    (⟨"START", 0x400000000#35, 0x700000000#35⟩ : OpRow).selects 0x4DEADBEEF#35 = true := by decide
theorem witness_DataIgnoredByCommandsThatTakeNone :
    opField 0x400000000#35 = opField 0x4DEADBEEF#35 ∧ opField 0x400000000#35 ≠ 0b010#3 ∧
      opField 0x400000000#35 ≠ 0b011#3 := by decide
theorem witness_OnlyThirtyFiveBitWordsDecode :
    (2 ^ 35 - 1 < 2 ^ 35) ∧ 2 ^ 35 ≤ 2 ^ 35 := by decide
theorem witness_AssembledLinesDecodeToTheirCommand :
    AsmLine.wf (.reserved 0x012345678) = true ∧ AsmLine.wf (.append (2 ^ 32)) = false := by decide
theorem witness_StepExecutesThePresentedCommand :
    ({ loaded with turns := [.command 0x400000000#35] } : State).turns =
      .command 0x400000000#35 :: [] := rfl
theorem witness_StepTakesThePlacedTurn :
    ({ loaded with turns := [.ack] } : State).turns = .ack :: [] ∧ loaded.turns = [] := ⟨rfl, rfl⟩
theorem witness_OneInstancesStepLeavesOthersAlone :
    ∃ sys', stepInstance 0 [loaded, busyArmed] = .next sys' ∧ (1 : Nat) ≠ 0 :=
  ⟨_, rfl, by decide⟩
theorem witness_BufResetSetsCursorToOne :
    opField 0x1DEADBEEF#35 = 0b001#3 ∧ loaded.xfer = .idle ∧ busyArmed.xfer = .busy := by decide
theorem witness_AppendStoresAtCursorAndAdvances :
    opField 0x211223344#35 = 0b010#3 ∧
    ((idleAt 1024).xfer = .idle ∧ (idleAt 1024).cursor < (idleAt 1024).params.capacity) ∧
    ((idleAt 1025).xfer = .idle ∧ (idleAt 1025).cursor = (idleAt 1025).params.capacity) ∧
    busyArmed.xfer = .busy := by decide
theorem witness_PrefixWritesCellZero :
    opField 0x3AABBCC00#35 = 0b011#3 ∧ loaded.params.wf ∧ loaded.xfer = .idle ∧
    busyArmed.params.wf ∧ busyArmed.xfer = .busy := by decide
theorem witness_LengthAnswersThePayloadBytes :
    opField 0x600000000#35 = 0b110#3 ∧ (idleAt 1025).params.wf ∧
    (idleAt 1025).cursor ≤ (idleAt 1025).params.capacity := by decide
theorem witness_LengthAfterAppends :
    let s := { idle1 with turns := [.command 0x211223344#35, .command 0x600000000#35] }
    s.params.wf ∧ s.xfer = .idle ∧ s.cursor = 1 ∧ [0x11223344#32].length ≤ s.params.capacity - 1 ∧
    s.turns = [0x11223344#32].map (fun d => .command (encode (.append d))) ++
      .command (encode .length) :: [] := by decide
theorem witness_BufResetThenLength :
    let s := { loaded with turns := [.command 0x100000000#35, .command 0x600000000#35] }
    s.params.wf ∧ s.xfer = .idle ∧
    s.turns = .command (encode .bufReset) :: .command (encode .length) :: [] := by decide
theorem witness_AppendNotAnsweredOk :
    ∃ t, exec (.append 0#32) (idleAt 1025) = .next t ∧ t.rsp ≠ some ⟨.ok, 0#32⟩ :=
  ⟨_, rfl, by decide⟩
theorem witness_StartArmsOneBurst :
    opField 0x400000000#35 = 0b100#3 ∧ (loaded.xfer = .idle ∧ 2 ≤ loaded.cursor) ∧
    (idle1.xfer = .idle ∧ idle1.cursor ≤ 1) ∧ busyArmed.xfer = .busy := by decide
theorem witness_IsBusyAnswersTheBusyByte :
    opField 0x500000000#35 = 0b101#3 ∧ loaded.xfer = .idle ∧ busyDrain.xfer = .busy ∧
    busyDrain.params.wf := by decide
theorem witness_ReadFaultsAnswersTheStickyBits : opField 0x700000000#35 = 0b111#3 ∧ 3 ≤ 3 := by decide
theorem witness_ReservedOpcodeTakesIllegal : opField 0x012345678#35 = 0b000#3 := by decide
theorem witness_BusyRefusesMutatingCommands :
    busyArmed.xfer = .busy ∧
    ({ busyArmed with params := { tp with debugAssert := false } } : State).params.debugAssert = false ∧
    (Instr.append 1#32 = .bufReset ∨ Instr.append 1#32 = .start ∨ (∃ d, Instr.append 1#32 = .append d) ∨
      ∃ d, Instr.append 1#32 = .prefixCell d) :=
  ⟨rfl, rfl, .inr (.inr (.inl ⟨1#32, rfl⟩))⟩
theorem witness_BufferFullChangesNothing :
    (idleAt 1025).xfer = .idle ∧ (idleAt 1025).cursor = (idleAt 1025).params.capacity := by decide
theorem witness_EmptyStartChangesNothing : idle1.xfer = .idle ∧ idle1.cursor ≤ 1 := by decide
theorem witness_FaultBitsAreSticky :
    let s := { busyArmed with faults := ⟨true, true, true⟩, turns := [.complete] }
    ∃ t, step s = .next t ∧ s.turns.head? ≠ some .hwReset ∧ s.faults = ⟨true, true, true⟩ :=
  ⟨_, rfl, by decide, rfl⟩
theorem witness_FrameOfCommandsThatStoreNothing :
    ∃ t, exec .isBusy busyArmed = .next t := ⟨_, rfl⟩
theorem witness_FrameOfStoringCommands :
    ((∃ t, exec (.append 7#32) loaded = .next t) ∧ loaded.xfer = .idle) ∧
    ((∃ t, exec (.append 7#32) busyArmed = .next t) ∧ busyArmed.xfer = .busy) ∧
    ((∃ t, exec (.append 7#32) (idleAt 1025) = .next t) ∧
      (idleAt 1025).cursor = (idleAt 1025).params.capacity) ∧
    (∃ t, exec (.prefixCell 7#32) loaded = .next t) ∧
    ∃ t, exec (.prefixCell 7#32) busyArmed = .next t :=
  ⟨⟨⟨_, rfl⟩, rfl⟩, ⟨⟨_, rfl⟩, rfl⟩, ⟨⟨_, rfl⟩, rfl⟩, ⟨_, rfl⟩, ⟨_, rfl⟩⟩
theorem witness_StoredCellReadsBackLittleEndian :
    (3 : Nat) < 4 ∧ (3 < 4 * 1 ∨ 4 * 1 + 4 ≤ 3) ∧ (8 < 4 * 1 ∨ 4 * 1 + 4 ≤ 8) ∧
    Memory.wf loaded.mem := by decide
theorem witness_BurstRegionLiesInsideTheBuffer :
    tp.wf ∧ 1 ≤ 1025 ∧ 1025 ≤ tp.capacity ∧ tp.prefixBytes = 3 := by decide
theorem witness_BootedBurstHoldsNoFreeByte : Inv loaded ∧ BootReady loaded :=
  ⟨loaded_inv, by unfold BootReady; decide⟩
theorem witness_AckBeginsDrainOrIsSpurious :
    let due := { busyArmed with cplPending := true }
    let stray := { loaded with cplPending := true }
    (due.cplPending = true ∧ due.xfer = .busy ∧ due.phase = .armed) ∧
    (stray.cplPending = true ∧ (stray.xfer = .idle ∨ stray.phase = .drain)) ∧
    busyArmed.cplPending = false ∧ ∃ t, runTurn .ack busyArmed = .next t :=
  ⟨by decide, by decide, rfl, _, rfl⟩
theorem witness_FinalizeReleasesAfterTheDrain :
    (busyDrain.xfer = .busy ∧ busyDrain.phase = .drain ∧ busyDrain.txBusy = false) ∧
    ¬ (busyArmed.xfer = .busy ∧ busyArmed.phase = .drain ∧ busyArmed.txBusy = false) ∧
    ∃ t, runTurn .finalize busyArmed = .next t :=
  ⟨by decide, by decide, _, rfl⟩
theorem witness_DisabledTurnsPassWithoutEffect :
    loaded.cplPending = false ∧
    ¬ (loaded.xfer = .busy ∧ loaded.phase = .drain ∧ loaded.txBusy = false) ∧
    ¬ (loaded.xfer = .busy ∧ loaded.phase = .armed ∧ loaded.cplPending = false ∧
      loaded.wireSent < loaded.armLen) := by decide
theorem witness_WireSendsTheNextBurstByte :
    Inv busyArmed ∧ busyArmed.xfer = .busy ∧ busyArmed.phase = .armed ∧
    busyArmed.cplPending = false ∧ busyArmed.wireSent < busyArmed.armLen :=
  ⟨busyArmed_inv, by decide⟩
theorem witness_PowerOnMeetsTheInvariants : tp.wf := by decide
theorem witness_EveryStepKeepsTheInvariants :
    Inv busyArmed ∧ ∃ t, step busyArmed = .next t := ⟨busyArmed_inv, _, rfl⟩
theorem witness_EveryStepKeepsTheTraceFramed :
    Framed busyDrain ∧ ∃ t, step busyDrain = .next t := ⟨by unfold Framed; decide, _, rfl⟩
theorem witness_InvariantStatesNeverStop : Inv loaded := loaded_inv
theorem witness_RegistersFitTheirWidths : Inv busyArmed ∧ busyArmed.params.capacity = 1025 :=
  ⟨busyArmed_inv, rfl⟩
theorem witness_BusyFreezesBufferAndCursor :
    let s := { busyArmed with turns := [.command 0x2FFFFFFFF#35] }
    ∃ t, step s = .next t ∧ s.xfer = .busy ∧ t.xfer = .busy := ⟨_, rfl, rfl, rfl⟩
theorem witness_OnlyFinalizeOrResetLeavesBusy :
    (∃ t, step busyDrain = .next t ∧ busyDrain.xfer = .busy ∧ t.xfer = .idle) ∧
    (let s := { busyArmed with turns := [.hwReset] }
     ∃ t, step s = .next t ∧ s.xfer = .busy ∧ t.xfer = .idle) :=
  ⟨⟨_, rfl, rfl, rfl⟩, ⟨_, rfl, rfl, rfl⟩⟩
theorem witness_OnlyStartEntersBusy :
    let s := { loaded with turns := [.command 0x400000000#35] }
    ∃ t, step s = .next t ∧ s.xfer = .idle ∧ t.xfer = .busy := ⟨_, rfl, rfl, rfl⟩
theorem witness_PrefixCellPersists :
    let s := { loaded with turns := [.complete] }
    Inv s ∧ (∃ t, step s = .next t) ∧
    (∀ w d, s.turns.head? = some (.command w) → decodeCommand w ≠ .prefixCell d) ∧
    s.turns.head? ≠ some .hwReset :=
  ⟨{ loaded_inv with }, ⟨_, rfl⟩, by simp, by simp⟩
theorem witness_SequencerWritesNoCell :
    (∃ t, step busyDrain = .next t) ∧ busyDrain.turns = [] := ⟨⟨_, rfl⟩, rfl⟩
theorem witness_IdleAnswerMeansTheFrameIsClosed :
    Inv loaded ∧ Framed loaded ∧
    ∃ t, exec .isBusy loaded = .next t ∧ t.rsp = some ⟨.ok, 0#32⟩ :=
  ⟨loaded_inv, rfl, _, rfl, rfl⟩
theorem witness_CompletionRightAfterStartIsTheBurstsOwn :
    let s := { loaded with turns := [.command 0x400000000#35, .complete, .ack] }
    opField 0x400000000#35 = 0b100#3 ∧ s.xfer = .idle ∧ 2 ≤ s.cursor ∧ s.cplPending = false ∧
    s.turns = .command 0x400000000#35 :: .complete :: .ack :: [] := by decide
theorem witness_WholeTransferBracketsItsBurst :
    let s := { loaded with
      turns := .command 0x400000000#35 :: (List.replicate 7 .wire ++ [.complete, .ack, .finalize]) }
    Inv s ∧ s.xfer = .idle ∧ 2 ≤ s.cursor ∧ s.cplPending = false ∧ s.txBusy = false ∧
    s.turns = .command (encode .start) ::
      (List.replicate (burstLen s.params s.cursor) .wire ++ .complete :: .ack :: .finalize :: []) :=
  ⟨{ loaded_inv with }, by decide⟩
theorem witness_LatchedCompletionEndsTheTransfer :
    let s := { busyArmed with cplPending := true }
    s.turns = [] ∧ s.xfer = .busy ∧ s.phase = .armed ∧ s.cplPending = true ∧
    s.txBusy = false := by decide
theorem witness_EnabledSequencerStepsAreTaken :
    let s := { busyDrain with cplPending := true }
    s.turns = [] ∧ s.cplPending = true ∧ s.xfer = .busy ∧ s.phase = .drain ∧
    s.txBusy = false := by decide
theorem witness_DrainHangHoldsForEver :
    let s := { busyDrain with txBusy := true }
    DrainHolds s ∧ s.turns = [] := ⟨by unfold DrainHolds; decide, rfl⟩
theorem witness_PollLoopExitsExactlyWhenIdle :
    let i := { loaded with turns := [.pollIdle] }
    let b := { busyArmed with turns := [.pollIdle, .complete] }
    (i.params.wf ∧ i.turns = .pollIdle :: [] ∧ i.xfer = .idle) ∧
    (b.params.wf ∧ b.turns = .pollIdle :: [.complete] ∧ b.xfer = .busy) := by decide
theorem witness_PollLoopNeverExitsInADrainHang :
    let s := { busyDrain with txBusy := true, turns := [.pollIdle] }
    s.params.wf ∧ DrainHolds s ∧ s.turns = [.pollIdle] :=
  ⟨by decide, by unfold DrainHolds; decide, rfl⟩
theorem witness_DutifulPartiesRecordNoFault :
    let s := { busyArmed with wireSent := 7, turns := [.complete] }
    FaultFree s ∧ LatchOwned s ∧ polite (nextTurn s).1 s = true ∧
    dutiful true (nextTurn s).1 s = true ∧ dutiful false (nextTurn s).1 s = true ∧
    ∃ t, step s = .next t :=
  ⟨rfl, by unfold LatchOwned; decide, by decide, by decide, by decide, _, rfl⟩
theorem witness_EveryCommandGetsItsResponse :
    (∃ t, exec (.append 0#32) (idleAt 1025) = .next t) ∧ ∃ t, exec .start busyArmed = .next t :=
  ⟨⟨_, rfl⟩, ⟨_, rfl⟩⟩
theorem witness_DrainHangSurvivesEveryOtherTurn :
    let s := { busyDrain with txBusy := true, turns := [.complete, .txBusy false] }
    Draining s ∧ (nextTurn s).1.endsDrain = false := ⟨by unfold Draining; decide, by decide⟩
theorem witness_DrainHangHoldsInEveryOrder :
    let s := { busyDrain with
      txBusy := true, turns := [.complete, .pollIdle, .ack, .command 0x400000000#35, .txBusy true] }
    Draining s ∧ (∀ t ∈ s.turns, t.endsDrain = false) ∧ s.params.wf ∧ .pollIdle ∈ s.turns :=
  ⟨by unfold Draining; decide, by decide, by decide, by decide⟩
/-- A rise with bytes left, a fall with none left, and the FINALIZE after it. -/
theorem witness_DutifulPlatformFramesTheWholeBurst :
    let r := { busyArmed with turns := [.txBusy true] }
    let f := { busyArmed with wireSent := 7, txBusy := true, turns := [.txBusy false] }
    (OnDuty true r ∧ dutiful true (nextTurn r).1 r = true ∧ ∃ t, step r = .next t ∧ t.txBusy = true) ∧
    (OnDuty true f ∧ dutiful true (nextTurn f).1 f = true ∧ ∃ t, step f = .next t ∧ t.txBusy = false) ∧
    (OnDuty false busyDrain ∧ dutiful false (nextTurn busyDrain).1 busyDrain = true ∧
      ∃ t, step busyDrain = .next t ∧ t.xfer = .idle ∧ (nextTurn busyDrain).1 ≠ .hwReset) :=
  ⟨⟨⟨by decide, by decide, by decide⟩, by decide, _, rfl, rfl⟩,
    ⟨⟨by decide, by decide, by decide⟩, by decide, _, rfl, rfl⟩,
    ⟨⟨by decide, by decide, by decide⟩, by decide, _, rfl, rfl, by decide⟩⟩
/-- From power-on, either kind of peripheral is on duty. -/
theorem test_power_on_is_on_duty : OnDuty true idle1 ∧ OnDuty false idle1 :=
  ⟨⟨by decide, by decide, by decide⟩, ⟨by decide, by decide, by decide⟩⟩

/-! ## PLATFORM's duties: a move that breaks each clause of R85 and R86 is refused -/

theorem test_duty_no_rise_while_idle : dutiful true (.txBusy true) loaded = false := by decide
theorem test_duty_no_second_rise_in_drain : dutiful true (.txBusy true) busyDrain = false := by decide
theorem test_duty_no_fall_with_bytes_left :
    dutiful true (.txBusy false) { busyArmed with wireSent := 3, txBusy := true } = false := by decide
theorem test_duty_no_byte_before_the_rise : dutiful true .wire busyArmed = false := by decide
theorem test_duty_tied_low : dutiful false (.txBusy true) busyArmed = false := by decide
theorem test_duty_no_early_complete :
    dutiful true .complete { busyArmed with wireSent := 6, txBusy := true } = false := by decide

/-! ## The response codes (the table of R61) -/

theorem test_status_codes :
    [Status.ok, .bufferFull, .concurrentAccess, .illegal].map Status.code =
      [0b00#2, 0b01#2, 0b10#2, 0b11#2] := by decide

/-! ## The host's two names, on the reset state -/

theorem test_placed_start_runs_from_reset :
    holds (step (State.reset.withFetchWord 40 0x400000000)) (fun t =>
      t.rsp == some ⟨.ok, 0#32⟩ && t.turns == []) = true := by decide
theorem test_reset_waits :
    holds (step State.reset) (fun t => t.turns == [] && t.trace == [] && t.cursor == 1) = true := by decide

end Sys2Proof.Tests
end

