-- ==== Sys2Proof/Proofs/BurstRegion.lean ====
section
/-! The burst region (spec/20_memory.md R45): where it ends, and that it stays inside the buffer (R42). -/

namespace Sys2Proof.Machine

/-- The P bytes the start skips back into the prefix cell are the P bytes the length adds, so the region ends
where the cells below the cursor end. -/
theorem burstAddr_add_burstLen {p : Config.Params} {c : Nat} (hp : p.wf) (h1 : 1 ≤ c) :
    burstAddr p + burstLen p c = 4 * c := by
  obtain ⟨-, hprefix, -, -⟩ := hp
  unfold burstAddr burstLen
  omega

theorem burst_ends_inside_buffer {p : Config.Params} {c : Nat} (hp : p.wf) (h1 : 1 ≤ c)
    (hc : c ≤ p.capacity) : burstAddr p + burstLen p c ≤ bufferBytes p := by
  rw [burstAddr_add_burstLen hp h1]
  exact Nat.mul_le_mul_left 4 hc

theorem burstAddr_of_prefixBytes_eq_three {p : Config.Params} (h3 : p.prefixBytes = 3) :
    burstAddr p = 1 := by
  rw [burstAddr, h3]

/-- Settles O29: start and length are R45's own; the end is `burstAddr_add_burstLen`, and from it follow the
bound and, with the region starting at byte 1, the length `4c − 1`. -/
theorem burstRegionLiesInsideTheBuffer : Obligations.BurstRegionLiesInsideTheBuffer := by
  intro p c hp h1 hc
  have hend : burstAddr p + burstLen p c = 4 * c := burstAddr_add_burstLen hp h1
  refine ⟨rfl, rfl, hend, burst_ends_inside_buffer hp h1 hc, fun h3 => ?_⟩
  have hstart : burstAddr p = 1 := burstAddr_of_prefixBytes_eq_three h3
  exact ⟨hstart, by omega⟩

end Sys2Proof.Machine
end

