-- ==== Sys2Proof/Proofs/Decoding.lean ====
section
/-! Decoding by the opcode field (spec/30_encoding.md R62): a word whose `op` field is a command's decodes to that
command, and so does the word a command is encoded as. -/

namespace Sys2Proof

/-- The three bits the decoder looks at, from the opcode field. -/
theorem opcode_bits_of_opField {w : CmdWord} {b2 b1 b0 : Bool}
    (h : opField w = BitVec.ofBool b2 ++ BitVec.ofBool b1 ++ BitVec.ofBool b0) :
    w.getLsbD 34 = b2 ∧ w.getLsbD 33 = b1 ∧ w.getLsbD 32 = b0 := by
  rw [opField_bits] at h
  generalize w.getLsbD 34 = x at h ⊢
  generalize w.getLsbD 33 = y at h ⊢
  generalize w.getLsbD 32 = z at h ⊢
  revert x y z b2 b1 b0
  decide

/-- The `op` field alone selects the command; `data` matters only to the two commands that carry it. -/
theorem decodeCommand_of_opField {w : CmdWord} {i : Instr} (hop : opField w = opOf i)
    (hdata : ∀ d, i = .append d ∨ i = .prefixCell d → dataField w = d) : decodeCommand w = i := by
  have row (b2 b1 b0 : Bool) (h : opOf i = BitVec.ofBool b2 ++ BitVec.ofBool b1 ++ BitVec.ofBool b0) :
      w.getLsbD 34 = b2 ∧ w.getLsbD 33 = b1 ∧ w.getLsbD 32 = b0 :=
    opcode_bits_of_opField (hop.trans h)
  cases i with
  | reserved000 => simp only [decodeCommand, row false false false rfl]
  | bufReset => simp only [decodeCommand, row false false true rfl]
  | append d => simp only [decodeCommand, row false true false rfl, hdata d (.inl rfl)]
  | prefixCell d => simp only [decodeCommand, row false true true rfl, hdata d (.inr rfl)]
  | start => simp only [decodeCommand, row true false false rfl]
  | isBusy => simp only [decodeCommand, row true false true rfl]
  | length => simp only [decodeCommand, row true true false rfl]
  | readFaults => simp only [decodeCommand, row true true true rfl]

@[simp] theorem decodeCommand_encode (i : Instr) : decodeCommand (encode i) = i := by
  refine decodeCommand_of_opField (opField_append _ _) fun d hi => ?_
  rw [encode, dataField_append]
  obtain rfl | rfl := hi <;> rfl

end Sys2Proof

namespace Sys2Proof.Machine

/-- With a command's word placed, the step executes that command, the last response gone. -/
theorem step_command {s : State} {i : Instr} {rest : List Turn}
    (h : s.turns = .command (encode i) :: rest) :
    step s = exec i { s with turns := rest, rsp := none } := by
  rw [step_turn h, runTurn_command, decodeCommand_encode]

end Sys2Proof.Machine
end

