-- ==== Sys2Proof/Proofs/TransferBuffer.lean ====
section
/-! The Transfer Buffer commands (spec/40_transfer_buffer.md): the refusal while Busy (R102), what each command
does (R70 to R73), and runs of APPENDs (R74). -/

namespace Sys2Proof.Machine

/-- The refusal of R102, written out: FAULT.conc if DEBUG_ASSERT, and the response. -/
theorem raise_concurrentAccess (s : State) : raise .concurrentAccess s = { s with
    faults := { s.faults with conc := s.faults.conc || s.params.debugAssert }
    rsp := some ⟨.concurrentAccess, 0#32⟩ } := rfl

/-- R101, written out: the response alone. -/
theorem raise_bufferFull (s : State) :
    raise .bufferFull s = { s with rsp := some ⟨.bufferFull, 0#32⟩ } := rfl

/-- Settles O13: `execBufReset_idle` is R70's effect, `execBufReset_busy` the refusal of R102. -/
theorem bufResetSetsCursorToOne : Obligations.BufResetSetsCursorToOne := by
  refine ⟨fun w hop => decodeCommand_of_opField hop (by simp),
    fun s => ⟨fun hidle => ?_, fun hbusy => ?_⟩⟩
  · exact execBufReset_idle hidle
  · rw [← raise_concurrentAccess]
    exact execBufReset_busy hbusy

/-- Settles O14: below CAPACITY the APPEND writes the cell at the cursor (`execAppend_room`), and the laws of
`Memory.writeCell` say what each cell and byte reads; at CAPACITY and while Busy it is refused. -/
theorem appendStoresAtCursorAndAdvances : Obligations.AppendStoresAtCursorAndAdvances := by
  refine ⟨fun w hop => decodeCommand_of_opField hop (by simp),
    fun s d => ⟨fun hidle hroom => ?_, fun hidle hfull => ?_, fun hbusy => ?_⟩⟩
  · exact ⟨_, execAppend_room hidle hroom, Memory.readCell_writeCell_same s.mem s.cursor d,
      fun i hi => Memory.readCell_writeCell_other s.mem d hi,
      fun a ha => Memory.read_writeCell_outside s.mem s.cursor d ha, rfl⟩
  · rw [← raise_bufferFull]
    exact execAppend_full hidle hfull
  · rw [← raise_concurrentAccess]
    exact execAppend_busy hbusy

/-- Settles O15: a well-formed buffer has a cell 0, which PREFIX writes (`execPrefix_idle`); the laws of
`Memory.writeCell` say what each cell and byte reads. -/
theorem prefixWritesCellZero : Obligations.PrefixWritesCellZero := by
  refine ⟨fun w hop => decodeCommand_of_opField hop (by simp),
    fun s d hwf => ⟨fun hidle => ?_, fun hbusy => ?_⟩⟩
  · have hcell : 0 < s.params.capacity := Nat.zero_lt_of_lt hwf.1
    exact ⟨_, execPrefix_idle hidle hcell, Memory.readCell_writeCell_same s.mem 0 d,
      fun i hi => Memory.readCell_writeCell_other s.mem d hi,
      fun a ha => Memory.read_writeCell_outside s.mem 0 d (.inr ha), rfl⟩
  · rw [← raise_concurrentAccess]
    exact execPrefix_busy hbusy

theorem lengthInBytes_le {c n : Nat} (hc : c ≤ n) : lengthInBytes c ≤ 4 * (n - 1) := by
  unfold lengthInBytes
  split <;> omega

/-- LENGTH's field is wide enough and the response is too (R34, R61): the payload length is not cut. -/
theorem lengthRead_toNat {s : State} (hwf : s.params.wf) (hc : s.cursor ≤ s.params.capacity) :
    (lengthRead s).toNat = lengthInBytes s.cursor := by
  obtain ⟨hcap, -, -, hresponse⟩ := hwf
  have hle : lengthInBytes s.cursor ≤ 4 * (s.params.capacity - 1) := lengthInBytes_le hc
  have hfield : lengthInBytes s.cursor < 2 ^ s.params.latchBits :=
    Nat.lt_of_le_of_lt (by omega) (lt_two_pow_bitWidth (4 * s.params.capacity - 1))
  have hdata : lengthInBytes s.cursor < 2 ^ 32 := by omega
  rw [lengthRead, BitVec.toNat_setWidth, BitVec.toNat_ofNat, Nat.mod_eq_of_lt hfield,
    Nat.mod_eq_of_lt hdata]

/-- Settles O16: LENGTH responds with `lengthRead`, whose value is `lengthRead_toNat`. -/
theorem lengthAnswersThePayloadBytes : Obligations.LengthAnswersThePayloadBytes := by
  refine ⟨fun w hop => decodeCommand_of_opField hop (by simp),
    fun s hwf hc => ⟨lengthRead s, rfl, lengthRead_toNat hwf hc, ?_⟩⟩
  rw [lengthRead_toNat hwf hc]
  exact lengthInBytes_le hc

/-- The response LENGTH gives with n words behind cell 0 (R74). -/
theorem lengthRead_of_cursor_eq_succ {s : State} {n : Nat} (hwf : s.params.wf)
    (hc : s.cursor = n + 1) (hn : n < s.params.capacity) :
    lengthRead s = BitVec.ofNat 32 (4 * n) := by
  have hvalue : (lengthRead s).toNat = 4 * n := by
    rw [lengthRead_toNat hwf (hc ▸ hn), hc, lengthInBytes]
    split <;> omega
  rw [← hvalue, BitVec.ofNat_toNat, BitVec.setWidth_eq]

theorem runSteps_add {s t : State} {m : Nat} (n : Nat) (h : runSteps m s = .next t) :
    runSteps (m + n) s = runSteps n t := by
  induction m generalizing s with
  | zero => cases h; rw [Nat.zero_add]
  | succ m ih =>
    rw [Nat.succ_add]
    cases hs : step s with
    | next u => rw [runSteps_succ _ hs] at h ⊢; exact ih h
    | fault r | refused r => simp [runSteps, hs, andThen] at h

/-- The turns of PRODUCER appending words one after another. -/
def appendTurns (ds : List Word) : List Turn := ds.map fun d => .command (encode (.append d))

/-- What the APPENDs of `ds`, all successful, leave of `s`: the engine still Idle, the cursor past the words, the
words in the cells from the old cursor on, and the cells before it as they were. -/
structure Appended (s : State) (ds : List Word) (rest : List Turn) (t : State) : Prop where
  params : t.params = s.params
  xfer : t.xfer = .idle
  cursor : t.cursor = s.cursor + ds.length
  turns : t.turns = rest
  stored : ∀ j (hj : j < ds.length), Memory.readCell t.mem (s.cursor + j) = some ds[j]
  below : ∀ i < s.cursor, Memory.readCell t.mem i = Memory.readCell s.mem i

/-- One run of APPENDs after another stores the words of both. -/
theorem Appended.trans {s u t : State} {ds es : List Word} {rest rest' : List Turn}
    (hu : Appended s ds rest u) (ht : Appended u es rest' t) : Appended s (ds ++ es) rest' t where
  params := ht.params.trans hu.params
  xfer := ht.xfer
  cursor := by rw [ht.cursor, hu.cursor, List.length_append, Nat.add_assoc]
  turns := ht.turns
  stored j hj := by
    by_cases hfirst : j < ds.length
    · rw [ht.below _ (by rw [hu.cursor]; omega), hu.stored j hfirst, List.getElem_append_left]
    · rw [List.length_append] at hj
      have hcell : s.cursor + j = u.cursor + (j - ds.length) := by rw [hu.cursor]; omega
      rw [hcell, ht.stored _ (by omega), List.getElem_append_right (Nat.le_of_not_lt hfirst)]
  below i hi := (ht.below i (by rw [hu.cursor]; omega)).trans (hu.below i hi)

/-- One APPEND into a buffer with room, taken as a step. -/
theorem step_append {s : State} {d : Word} {rest : List Turn} (hidle : s.xfer = .idle)
    (hroom : s.cursor < s.params.capacity) (hturns : s.turns = .command (encode (.append d)) :: rest) :
    ∃ t, step s = .next t ∧ Appended s [d] rest t := by
  refine ⟨_, (step_command hturns).trans (execAppend_room hidle hroom), rfl, hidle, rfl, rfl, ?_, ?_⟩
  · intro j hj
    obtain rfl : j = 0 := Nat.lt_one_iff.1 hj
    exact Memory.readCell_writeCell_same s.mem s.cursor d
  · exact fun i hi => Memory.readCell_writeCell_other s.mem d (Nat.ne_of_lt hi)

/-- Every list of APPENDs the buffer has room for, from any cursor. -/
theorem runSteps_appends (ds : List Word) {s : State} {rest : List Turn} (hidle : s.xfer = .idle)
    (hroom : s.cursor + ds.length ≤ s.params.capacity) (hturns : s.turns = appendTurns ds ++ rest) :
    ∃ t, runSteps ds.length s = .next t ∧ Appended s ds rest t := by
  induction ds generalizing s with
  | nil => exact ⟨s, rfl, rfl, hidle, rfl, hturns, by simp, fun _ _ => rfl⟩
  | cons d ds ih =>
    rw [List.length_cons] at hroom
    obtain ⟨u, hstep, hu⟩ := step_append hidle (by omega) hturns
    have hroom' : u.cursor + ds.length ≤ u.params.capacity := by
      rw [hu.cursor, hu.params, List.length_singleton]
      omega
    obtain ⟨t, hrun, ht⟩ := ih hu.xfer hroom' hu.turns
    exact ⟨t, (runSteps_succ _ hstep).trans hrun, hu.trans ht⟩

/-- R74: an APPEND not answered OK does not count. -/
theorem append_not_ok_stores_nothing {s t : State} {d : Word} (h : execAppend d s = .next t)
    (hrsp : t.rsp ≠ some ⟨.ok, 0#32⟩) : t.cursor = s.cursor ∧ t.mem = s.mem := by
  rcases TransferState.idle_or_busy s.xfer with hidle | hbusy
  · rcases Nat.lt_trichotomy s.cursor s.params.capacity with hroom | hfull | houtside
    · rw [execAppend_room hidle hroom] at h
      cases h
      exact absurd rfl hrsp
    · rw [execAppend_full hidle hfull] at h
      cases h
      exact ⟨rfl, rfl⟩
    · rw [execAppend_outside hidle houtside] at h
      cases h
  · rw [execAppend_busy hbusy] at h
    cases h
    exact ⟨rfl, rfl⟩

/-- A LENGTH placed next answers 4·n where the cursor stands at n + 1. -/
theorem step_length {s : State} {rest : List Turn} {n : Nat} (hwf : s.params.wf)
    (hc : s.cursor = n + 1) (hn : n < s.params.capacity)
    (hturns : s.turns = .command (encode .length) :: rest) :
    step s = .next (respond .ok (BitVec.ofNat 32 (4 * n)) { s with turns := rest }) := by
  rw [step_command hturns, ← lengthRead_of_cursor_eq_succ hwf hc hn]
  rfl

/-- Settles O17: the run of APPENDs (`runSteps_appends`) leaves the cursor at n + 1, where LENGTH answers 4n
(`step_length`); BUF_RESET leaves it at 0 + 1. -/
theorem lengthAfterAppendsIsFourTimesTheirNumber :
    Obligations.LengthAfterAppendsIsFourTimesTheirNumber := by
  refine ⟨fun s ds rest hwf hidle hone hlen hturns => ?_, fun s rest hwf hidle hturns => ?_,
    fun s t d => append_not_ok_stores_nothing⟩
  · have hcap : 2 ≤ s.params.capacity := hwf.1
    obtain ⟨t, hrun, ht⟩ := runSteps_appends ds hidle (by omega) hturns
    have hcursor : t.cursor = ds.length + 1 := by rw [ht.cursor, hone, Nat.add_comm]
    have hlength := step_length (ht.params ▸ hwf) hcursor (by rw [ht.params]; omega) ht.turns
    exact ⟨_, (runSteps_add 1 hrun).trans (runSteps_succ 0 hlength), rfl, hcursor, rfl, ht.xfer,
      hone ▸ ht.stored⟩
  · have hcap : 0 < s.params.capacity := Nat.zero_lt_of_lt hwf.1
    have hreset := (step_command hturns).trans (execBufReset_idle hidle)
    have hlength := step_length (n := 0) (rest := rest)
      (s := respond .ok 0#32 { s with turns := .command (encode .length) :: rest, cursor := 1 })
      hwf rfl hcap rfl
    exact ⟨_, (runSteps_succ 1 hreset).trans (runSteps_succ 0 hlength), rfl⟩

end Sys2Proof.Machine
end

