-- ==== Sys2Proof/Proofs/TransferController.lean ====
section
/-! The Transfer Controller commands (spec/41_transfer_controller.md): START (R75) with its stale-latch path and
the arming of the burst, and what IS_BUSY (R76), READ_FAULTS (R77) and the reserved opcode (R78) answer. -/

namespace Sys2Proof.Machine

/-- R103, written out: the response alone. -/
theorem raise_emptyTransfer (s : State) :
    raise .emptyTransfer s = { s with rsp := some ⟨.ok, 0#32⟩ } := rfl

/-- R104, written out: FAULT.illegal and the response. -/
theorem raise_illegal (s : State) : raise .illegal s = { s with
    faults := { s.faults with illegal := true }
    rsp := some ⟨.illegal, 0#32⟩ } := rfl

/-- The stale-latch path of START, latch set or not (R75, R105). -/
theorem clearStaleLatch_eq (s : State) : clearStaleLatch s = { s with
    cplPending := false
    faults := { s.faults with spurious := s.faults.spurious || s.cplPending }
    trace := s.trace ++ (if s.cplPending then [.cplAck] else []) } := by
  rcases clearStaleLatch_cases s with ⟨hclear, heq⟩ | ⟨hset, heq⟩
  · rw [heq, hclear, Bool.or_false, if_neg Bool.false_ne_true, List.append_nil, ← hclear]
  · rw [heq, hset, Bool.or_true, if_pos rfl]
    rfl

/-- Steps 1 to 4 of START (R75), with the three events in their order. -/
theorem armBurst_eq (s : State) : armBurst s = { s with
    csActive := true, rxSuppressed := true
    armAddr := burstAddr s.params, armLen := burstLen s.params s.cursor
    xfer := .busy, phase := .armed, wireSent := 0
    trace := s.trace ++ [.csAssert, .rxSuppress,
      .arm (platformAddr s.params (burstAddr s.params)) (burstLen s.params s.cursor)] } := by
  have hevents := armBurst_trace s
  rw [List.append_assoc, List.append_assoc] at hevents
  exact congrArg (fun t => { armBurst s with trace := t }) hevents

/-- Settles O18: past the checks START is `armBurst` after `clearStaleLatch`, whose effects `armBurst_eq` and
`clearStaleLatch_eq` write out; the other two forms are the exceptions of R103 and R102. -/
theorem startArmsOneBurst : Obligations.StartArmsOneBurst := by
  refine ⟨fun w hop => decodeCommand_of_opField hop (by simp),
    fun s => ⟨fun hidle hpayload => ?_, fun hidle hempty => ?_, fun hbusy => ?_⟩⟩
  · refine (execStart_arms hidle (Nat.not_le.mpr hpayload)).trans ?_
    rw [armBurst_eq, clearStaleLatch_eq]
    rfl
  · rw [← raise_emptyTransfer]
    exact execStart_empty hidle hempty
  · rw [← raise_concurrentAccess]
    exact execStart_busy hbusy

theorem statusRead_idle {s : State} (h : s.xfer = .idle) : statusRead s = 0#32 := by
  rw [statusRead, busyByte, h]
  rfl

theorem statusRead_busy {s : State} (h : s.xfer = .busy) :
    statusRead s = s.params.busySentinel.setWidth 32 := by
  rw [statusRead, busyByte, h]

/-- A program's one test of the busy byte (R23): with a non-zero sentinel it tells Idle from Busy. -/
theorem statusRead_eq_zero_iff {s : State} (hwf : s.params.wf) :
    statusRead s = 0#32 ↔ s.xfer = .idle := by
  refine ⟨fun hzero => ?_, statusRead_idle⟩
  obtain ⟨-, -, hsentinel, -⟩ := hwf
  rcases TransferState.idle_or_busy s.xfer with hidle | hbusy
  · exact hidle
  · rw [statusRead_busy hbusy] at hzero
    have hsentinel_zero : s.params.busySentinel = 0#8 := by bv_omega
    exact absurd hsentinel_zero hsentinel

/-- While Busy, STATUS is the sentinel with zeros above (R34). -/
theorem statusRead_busy_low_byte {s : State} (h : s.xfer = .busy) :
    (statusRead s).extractLsb' 0 8 = s.params.busySentinel ∧ (statusRead s).toNat < 2 ^ 8 := by
  rw [statusRead_busy h, BitVec.extractLsb'_setWidth_of_le (by decide), BitVec.extractLsb'_eq_self,
    BitVec.toNat_setWidth_of_le (by decide)]
  exact ⟨rfl, s.params.busySentinel.isLt⟩

/-- Settles O19: IS_BUSY responds with `statusRead`, which is zero exactly while Idle
(`statusRead_eq_zero_iff`) and the sentinel's byte while Busy. -/
theorem isBusyAnswersTheBusyByte : Obligations.IsBusyAnswersTheBusyByte :=
  ⟨fun _ hop => decodeCommand_of_opField hop (by simp),
    fun s => ⟨statusRead s, rfl, statusRead_idle, statusRead_busy_low_byte, statusRead_eq_zero_iff⟩⟩

/-- FAULTS bit by bit (R77). -/
theorem faultsRead_getLsbD (s : State) :
    (faultsRead s).getLsbD 0 = s.faults.conc ∧ (faultsRead s).getLsbD 1 = s.faults.spurious ∧
      (faultsRead s).getLsbD 2 = s.faults.illegal ∧ ∀ k, 3 ≤ k → (faultsRead s).getLsbD k = false := by
  have hzero : ∀ k, 3 ≤ k → (faultsRead s).getLsbD k = false := fun k hk => by
    rw [faultsRead, BitVec.getLsbD_setWidth, BitVec.getLsbD_of_ge _ k hk, Bool.and_false]
  refine ⟨?_, ?_, ?_, hzero⟩ <;>
    simp only [faultsRead, BitVec.getLsbD_setWidth, BitVec.getLsbD_append] <;> simp

/-- Settles O20: READ_FAULTS responds with `faultsRead`, whose bits are `faultsRead_getLsbD`. -/
theorem readFaultsAnswersTheStickyBits : Obligations.ReadFaultsAnswersTheStickyBits :=
  ⟨fun _ hop => decodeCommand_of_opField hop (by simp),
    fun s => ⟨faultsRead s, rfl, faultsRead_getLsbD s⟩⟩

/-- Settles O21: the reserved opcode's one meaning, Idle or Busy, is to raise Illegal (`raise_illegal`). -/
theorem reservedOpcodeTakesIllegal : Obligations.ReservedOpcodeTakesIllegal :=
  ⟨fun _ hop => decodeCommand_of_opField hop (by simp),
    fun s => congrArg Host.Outcome.next (raise_illegal s)⟩

end Sys2Proof.Machine
end

