-- ==== Sys2Proof/Proofs/CompletionHandler.lean ====
section
/-! The completion sequence (spec/42_completion_handler.md): COMPLETE (R80), ACK (R81) and FINALIZE (R82), each
where its enabling condition holds and where it does not. -/

namespace Sys2Proof.Machine

/-- R105, written out: FAULT.spurious, and no response. -/
theorem raise_spuriousCompletion (s : State) : raise .spuriousCompletion s = { s with
    faults := { s.faults with spurious := true } } := rfl

/-- The acknowledgement of R81, written out. -/
theorem ackLatch_eq (s : State) : ackLatch s = { s with
    trace := s.trace ++ [.cplAck], cplPending := false } := rfl

theorem ackStep_latched {s : State} (h : s.cplPending = true) : ackStep s = ackEffect s :=
  if_pos h

theorem ackStep_not_latched {s : State} (h : s.cplPending = false) : ackStep s = s :=
  if_neg (ne_true_of_eq_false h)

/-- Steps 3 to 5 of the completion sequence (R82), with the two events in their order. -/
theorem releaseBurst_eq (s : State) : releaseBurst s = { s with
    trace := s.trace ++ [.rxRestore, .csDeassert]
    rxSuppressed := false, csActive := false, xfer := .idle, phase := .armed, cursor := 1 } := by
  have hevents := releaseBurst_trace s
  rw [List.append_assoc] at hevents
  exact congrArg (fun t => { releaseBurst s with trace := t }) hevents

theorem finalizeStep_drained {s : State} (h : s.xfer = .busy ∧ s.phase = .drain ∧ s.txBusy = false) :
    finalizeStep s = releaseBurst s :=
  if_pos (finalizeEnabled_iff.mpr h)

theorem finalizeStep_not_drained {s : State}
    (h : ¬ (s.xfer = .busy ∧ s.phase = .drain ∧ s.txBusy = false)) : finalizeStep s = s :=
  if_neg (mt finalizeEnabled_iff.mp h)

/-- Settles O31: the COMPLETE turn is `completeStep`, which makes no case of the state or the latch. -/
theorem completionEventIsLatched : Obligations.CompletionEventIsLatched :=
  fun s => runTurn_complete s

/-- Settles O32: with the latch set the ACK turn is `ackEffect`, whose two forms are `ackEffect_due` and
`ackEffect_spurious`; with it clear the turn leaves the state as it is. -/
theorem ackBeginsDrainOrIsSpurious : Obligations.AckBeginsDrainOrIsSpurious := by
  refine fun s => ⟨fun hset hdue => ?_, fun hset hstray => ?_, fun hclear t hnext => ?_⟩
  · obtain ⟨hbusy, harmed⟩ := hdue
    rw [runTurn_ack, ackStep_latched hset, ackEffect_due hbusy harmed, ackLatch_eq]
  · have hnot_due : ¬ (s.xfer = .busy ∧ s.phase = .armed) := by
      rcases hstray with hidle | hdrain
      · simp [hidle]
      · simp [hdrain]
    rw [runTurn_ack, ackStep_latched hset, ackEffect_spurious hnot_due, raise_spuriousCompletion,
      ackLatch_eq]
  · rw [runTurn_ack, ackStep_not_latched hclear] at hnext
    cases hnext
    exact ⟨rfl, rfl, rfl⟩

/-- Settles O33: once drained the FINALIZE turn is `releaseBurst`, which `releaseBurst_eq` writes out; before
that the turn leaves the state as it is. -/
theorem finalizeReleasesAfterTheDrain : Obligations.FinalizeReleasesAfterTheDrain := by
  refine fun s => ⟨fun hbusy hdrain htx => ?_, fun hnot t hnext => ?_⟩
  · rw [runTurn_finalize, finalizeStep_drained ⟨hbusy, hdrain, htx⟩, releaseBurst_eq]
  · rw [runTurn_finalize, finalizeStep_not_drained hnot] at hnext
    cases hnext
    exact ⟨rfl, rfl, rfl, rfl, rfl, rfl⟩

end Sys2Proof.Machine
end

