-- ==== Sys2Proof/Proofs/Exceptions.lean ====
section
/-! The exceptions that end a command with its response alone (spec/60_exceptions.md): ConcurrentAccess (R102),
BufferFull (R101) and EmptyTransfer (R103). -/

namespace Sys2Proof.Machine

/-- The first check of R107: the four commands that test the transfer state are refused while Busy, whatever the
cursor. -/
theorem exec_eq_raise_concurrentAccess {s : State} {i : Instr} (hbusy : s.xfer = .busy)
    (hi : i = .bufReset ∨ i = .start ∨ (∃ d, i = .append d) ∨ ∃ d, i = .prefixCell d) :
    exec i s = .next (raise .concurrentAccess s) := by
  rcases hi with rfl | rfl | ⟨d, rfl⟩ | ⟨d, rfl⟩
  · exact execBufReset_busy hbusy
  · exact execStart_busy hbusy
  · exact execAppend_busy hbusy
  · exact execPrefix_busy hbusy

/-- The release-build effect of R102: without DEBUG_ASSERT the refusal sets no FAULT bit. -/
theorem raise_concurrentAccess_release {s : State} (hrelease : s.params.debugAssert = false) :
    raise .concurrentAccess s = { s with rsp := some ⟨.concurrentAccess, 0#32⟩ } := by
  rw [raise_concurrentAccess, hrelease, Bool.or_false]

/-- Settles O22: each of the four commands raises ConcurrentAccess while Busy
(`exec_eq_raise_concurrentAccess`), whose effect `raise_concurrentAccess` writes out. -/
theorem busyRefusesMutatingCommands : Obligations.BusyRefusesMutatingCommands := by
  intro s i hbusy hi
  have hrefused := exec_eq_raise_concurrentAccess hbusy hi
  refine ⟨?_, fun hrelease => ?_⟩
  · rw [hrefused, raise_concurrentAccess]
  · rw [hrefused, raise_concurrentAccess_release hrelease]

/-- Settles O23: at CAPACITY the APPEND raises BufferFull (`execAppend_full`), which responds and no more. -/
theorem bufferFullChangesNothing : Obligations.BufferFullChangesNothing := by
  intro s d hidle hfull
  rw [← raise_bufferFull]
  exact execAppend_full hidle hfull

/-- Settles O24: with no payload queued START raises EmptyTransfer (`execStart_empty`), before it looks at the
latch. -/
theorem emptyStartChangesNothing : Obligations.EmptyStartChangesNothing := by
  intro s hidle hempty
  rw [← raise_emptyTransfer]
  exact execStart_empty hidle hempty

end Sys2Proof.Machine
end

