-- ==== Sys2Proof/Proofs/CommandWords.lean ====
section
/-! Command words (spec/30_encoding.md): a word taken apart into its command's two fields (R60, R63), the
rows of the opcode table that select it (R62), and the words of assembler lines (R66). -/

namespace Sys2Proof

/-- The decoder keeps the opcode: it only forgets the data of a command that takes none (R63). -/
theorem opOf_decodeCommand (w : CmdWord) : opOf (decodeCommand w) = opField w := by
  rw [opField_bits]
  unfold decodeCommand
  split <;> simp only [*] <;> rfl

theorem encode_decodeCommand (w : CmdWord) :
    encode (decodeCommand w) = opField w ++ operandOf (decodeCommand w) := by
  rw [encode, opOf_decodeCommand]

/-- Settles O4: one direction is `decodeCommand_encode`; in the other `encode_decodeCommand` gives the
word's own opcode field, and with the word's own data beside it the word is put together again. -/
theorem decodeAndEncodeAgree : Obligations.DecodeAndEncodeAgree := by
  refine ⟨decodeCommand_encode, fun w =>
    ⟨(opOf_decodeCommand w).symm, encode_decodeCommand w, fun hdata => ?_⟩⟩
  rw [encode_decodeCommand, hdata, opField_append_dataField]

/-- Settles O6: the second word has the opcode of the command the first decodes to, and that command, being
neither APPEND nor PREFIX, has no operand to differ in. -/
theorem dataIgnoredByCommandsThatTakeNone : Obligations.DataIgnoredByCommandsThatTakeNone := by
  intro w w' hop hnot_append hnot_prefix
  have hopcode : opOf (decodeCommand w) = opField w := opOf_decodeCommand w
  refine (decodeCommand_of_opField (hop.symm.trans hopcode.symm) fun d hi => ?_).symm
  rcases hi with hi | hi
  · exact absurd (hopcode.symm.trans (congrArg opOf hi)) hnot_append
  · exact absurd (hopcode.symm.trans (congrArg opOf hi)) hnot_prefix

/-! ### The opcode table -/

/-- A row selects the words that have its opcode: its mask keeps the opcode field, its match is an opcode
with no data. -/
theorem OpRow.selects_iff {r : OpRow} (hr : r ∈ opTable) (w : CmdWord) :
    r.selects w = true ↔ r.bits = opField w ++ 0#32 := by
  have hmask : ∀ r ∈ opTable, r.mask = 0x700000000#35 := by decide
  have hmasked : w &&& r.mask = opField w ++ 0#32 := by
    rw [hmask r hr, ← Laws.OpcodeRow.masked (opField w) (dataField w), opField_append_dataField]
  rw [OpRow.selects, hmasked, beq_iff_eq, eq_comm]

theorem exists_row_of_opcode : ∀ op : BitVec 3, ∃ r ∈ opTable, r.bits = op ++ 0#32 := by decide

theorem opTable_bits_injective : ∀ r ∈ opTable, ∀ r' ∈ opTable, r'.bits = r.bits → r' = r := by decide

/-- Row by row, match and mnemonic name the same command. -/
theorem OpRow.bits_eq_iff_mnemonic_eq {r : OpRow} (hr : r ∈ opTable) (i : Instr) :
    r.bits = opOf i ++ 0#32 ↔ r.mnemonic = mnemonicOf i := by
  revert r
  cases i <;> (simp only [opOf, mnemonicOf]; decide)

theorem OpRow.selects_iff_mnemonic_eq {r : OpRow} (hr : r ∈ opTable) (w : CmdWord) :
    r.selects w = true ↔ r.mnemonic = mnemonicOf (decodeCommand w) := by
  rw [OpRow.selects_iff hr, ← opOf_decodeCommand, OpRow.bits_eq_iff_mnemonic_eq hr]

/-- Settles O5: the table has a row for each opcode (`exists_row_of_opcode`), no two rows share a match,
and a row selects a word exactly by the opcode field (`OpRow.selects_iff`), which is its command's. -/
theorem everyWordSelectsExactlyItsRow : Obligations.EveryWordSelectsExactlyItsRow := by
  refine ⟨by decide, by decide, exists_row_of_opcode, fun w =>
    ⟨?_, fun r hr => OpRow.selects_iff_mnemonic_eq hr w⟩⟩
  obtain ⟨r, hr, hbits⟩ := exists_row_of_opcode (opField w)
  have hselects : r.selects w = true := (OpRow.selects_iff hr w).2 hbits
  refine ⟨r, hr, hselects, (OpRow.selects_iff_mnemonic_eq hr w).1 hselects, fun r' hr' hselects' => ?_⟩
  exact opTable_bits_injective r hr r' hr' (((OpRow.selects_iff hr' w).1 hselects').trans hbits.symm)

/-! ### Assembler lines and numbers -/

/-- A raw word below `1 << 32` has the reserved opcode. -/
theorem opField_ofNat_eq_zero {n : Nat} (h : n < 2 ^ 32) : opField (BitVec.ofNat 35 n) = 0b000#3 := by
  apply BitVec.eq_of_toNat_eq
  have hword : n % 2 ^ 35 = n := Nat.mod_eq_of_lt (by omega)
  rw [opField, BitVec.extractLsb'_toNat, BitVec.toNat_ofNat, hword, Nat.shiftRight_eq_div_pow,
    Nat.div_eq_of_lt h]
  rfl

theorem AsmLine.assemble_of_not_wf {l : AsmLine} (h : l.wf = false) : l.assemble = none :=
  if_neg (ne_true_of_eq_false h)

/-- A line with a command of its own assembles to that command's encoding; `.reserved` to its raw word. -/
theorem AsmLine.assemble_of_wf {l : AsmLine} (h : l.wf = true) :
    l.assemble = some (encode l.toInstr) ∨
      ∃ raw, l = .reserved raw ∧ l.assemble = some (BitVec.ofNat 35 raw) := by
  unfold AsmLine.assemble
  rw [if_pos h]
  cases l with
  | reserved raw => exact .inr ⟨raw, rfl, rfl⟩
  | bufReset | append | prefixCell | start | isBusy | length | readFaults => exact .inl rfl

/-- Settles O8: an encoding decodes to its command (`decodeCommand_encode`), and a raw word of a well-formed
`.reserved` line has the reserved opcode (`opField_ofNat_eq_zero`). -/
theorem assembledLinesDecodeToTheirCommand : Obligations.AssembledLinesDecodeToTheirCommand := by
  refine fun l => ⟨fun hwf => ?_, AsmLine.assemble_of_not_wf⟩
  rcases AsmLine.assemble_of_wf hwf with hword | ⟨raw, rfl, hword⟩
  · exact ⟨_, hword, decodeCommand_encode _⟩
  · have hraw : raw < 2 ^ 32 := of_decide_eq_true hwf
    exact ⟨_, hword, decodeCommand_of_opField (opField_ofNat_eq_zero hraw) (by simp [AsmLine.toInstr])⟩

/-- Settles O3: the words are numerals, so decoding computes. -/
theorem decodesTheWordsOfTheOpcodeMap : Obligations.DecodesTheWordsOfTheOpcodeMap := by
  unfold Obligations.DecodesTheWordsOfTheOpcodeMap
  decide

theorem decodeBits_of_lt {n : Nat} (h : n < 2 ^ 35) :
    decodeBits n = .ok (decodeCommand (BitVec.ofNat 35 n)) := if_pos h

theorem decodeBits_of_le {n : Nat} (h : 2 ^ 35 ≤ n) : decodeBits n = .error .widerThanCommand :=
  if_neg (Nat.not_lt.2 h)

/-- Settles O7: the decoder of numbers makes the one test of the width. -/
theorem onlyThirtyFiveBitWordsDecode : Obligations.OnlyThirtyFiveBitWordsDecode :=
  fun _ => ⟨decodeBits_of_lt, decodeBits_of_le⟩

end Sys2Proof
end

