-- ==== Sys2Proof/Proofs/Steps.lean ====
section
/-! One step as one turn (spec/20_memory.md R50): which turn is taken, the turns that pass without effect,
and what a step of one engine leaves of the others (spec/60_exceptions.md R115). -/

namespace Sys2Proof.Machine

/-- Settles O9: `step_turn`, the turn being a command. -/
theorem stepExecutesThePresentedCommand : Obligations.StepExecutesThePresentedCommand :=
  fun _ _ _ hturns => step_turn hturns

/-- Settles O10: `step_turn` and `step_nothing_placed`. -/
theorem stepTakesThePlacedTurn : Obligations.StepTakesThePlacedTurn :=
  fun _ => ⟨fun _ _ hturns => step_turn hturns, fun hturns => step_nothing_placed hturns⟩

/-- A 35-bit word is not cut by its own width. -/
theorem cmdWord_toNat_mod (w : CmdWord) : w.toNat % 2 ^ 35 = w.toNat := Nat.mod_eq_of_lt w.isLt

theorem withFetchWord_turns (s : State) (w : CmdWord) :
    (s.withFetchWord 35 w.toNat).turns = .command w :: s.turns := by
  rw [State.withFetchWord, cmdWord_toNat_mod, BitVec.ofNat_toNat, BitVec.setWidth_eq]

/-- Settles O11: the word placed is the one presented (`withFetchWord_turns`), and as a number it is a
command word (`decodeBits_of_lt`). -/
theorem placedCommandIsExecutedNext : Obligations.PlacedCommandIsExecutedNext := by
  refine fun s w => ⟨step_turn (withFetchWord_turns s w), ?_⟩
  rw [decodeTableWord, cmdWord_toNat_mod, decodeBits_of_lt w.isLt, BitVec.ofNat_toNat, BitVec.setWidth_eq]

/-- A step of the engine at place `k` puts its next state in its own place. -/
theorem stepInstance_next_cases {k : Nat} {sys sys' : List State} (h : stepInstance k sys = .next sys') :
    sys' = sys ∨ ∃ s, sys' = sys.set k s := by
  unfold stepInstance at h
  split at h
  · cases h; exact .inl rfl
  · split at h <;> cases h
    exact .inr ⟨_, rfl⟩

/-- Settles O12: at most the place `k` of the list is written (`stepInstance_next_cases`). -/
theorem oneInstancesStepLeavesOthersAlone : Obligations.OneInstancesStepLeavesOthersAlone := by
  intro k sys sys' h
  rcases stepInstance_next_cases h with rfl | ⟨s, rfl⟩
  · exact ⟨rfl, fun _ _ => rfl⟩
  · exact ⟨List.length_set, fun j hj => List.getElem?_set_ne (Ne.symm hj)⟩

theorem wireStep_disabled {s : State} (h : wireEnabled s = false) : wireStep s = .next s :=
  if_neg (ne_true_of_eq_false h)

/-- Settles O34: each of the three steps asks for its enabling condition first. -/
theorem disabledTurnsPassWithoutEffect : Obligations.DisabledTurnsPassWithoutEffect := by
  refine fun s => ⟨fun hclear => ?_, fun hnot => ?_, fun hnot => ?_⟩
  · rw [runTurn_ack, ackStep_not_latched hclear]
  · rw [runTurn_finalize, finalizeStep_not_drained hnot]
  · rw [runTurn_wire, wireStep_disabled (eq_false_of_ne_true (mt wireEnabled_iff.1 hnot))]

/-- Settles O36: the turn is `txBusyStep`, the update of that one field. -/
theorem txBusyTurnSetsTheLevelAlone : Obligations.TxBusyTurnSetsTheLevelAlone :=
  fun s level => runTurn_txBusy level s

/-! ### The turn a step takes -/

/-- A step is its turn, taken with that turn removed and the last response gone. -/
theorem step_eq_runTurn (s : State) :
    ∃ rest, step s = runTurn (nextTurn s).1 { s with turns := rest, rsp := none } := by
  obtain ⟨t, rest, hstep, rfl, -⟩ := step_cases s
  exact ⟨rest, hstep⟩

/-- Any turn but SEQ's own is taken only where it is placed first. -/
theorem head?_of_nextTurn {s : State} {t : Turn} (ht : t ≠ .seq) (h : (nextTurn s).1 = t) :
    s.turns.head? = some t := by
  obtain ⟨-, rest, -, rfl, ⟨-, hseq⟩ | hturns⟩ := step_cases s
  · exact absurd (h.symm.trans hseq) ht
  · rw [hturns, List.head?_cons, h]

/-- With nothing placed, or SEQ's step placed, the turn is one of SEQ's three. -/
theorem nextTurn_of_sequencer {s : State} (h : s.turns = [] ∨ s.turns.head? = some .seq ∨
    s.turns.head? = some .ack ∨ s.turns.head? = some .finalize) :
    (nextTurn s).1 = .seq ∨ (nextTurn s).1 = .ack ∨ (nextTurn s).1 = .finalize := by
  obtain ⟨t, rest, -, rfl, ⟨-, hseq⟩ | hturns⟩ := step_cases s
  · exact .inl hseq
  · simpa [hturns] using h

/-! ### What a turn can do -/

/-- The ways a command is carried out: the disjuncts of `exec_next_cases`, named for the case splits of the
proofs. -/
inductive Executed (i : Instr) (s : State) : State → Prop
  | refused (hbusy : s.xfer = .busy)
      (hi : i = .bufReset ∨ i = .start ∨ (∃ d, i = .append d) ∨ ∃ d, i = .prefixCell d) :
      Executed i s (raise .concurrentAccess s)
  | illegal (hi : i = .reserved000) : Executed i s (raise .illegal s)
  | bufReset (hi : i = .bufReset) (hidle : s.xfer = .idle) :
      Executed i s (respond .ok 0#32 { s with cursor := 1 })
  | full (d : Word) (hi : i = .append d) (hidle : s.xfer = .idle) (hfull : s.cursor = s.params.capacity) :
      Executed i s (raise .bufferFull s)
  | append (d : Word) (hi : i = .append d) (hidle : s.xfer = .idle) (hroom : s.cursor < s.params.capacity) :
      Executed i s (respond .ok 0#32
        { s with mem := Memory.writeCell s.mem s.cursor d, cursor := s.cursor + 1 })
  | prefixCell (d : Word) (hi : i = .prefixCell d) (hidle : s.xfer = .idle) (hcell : 0 < s.params.capacity) :
      Executed i s (respond .ok 0#32 { s with mem := Memory.writeCell s.mem 0 d })
  | empty (hi : i = .start) (hidle : s.xfer = .idle) (hempty : s.cursor ≤ 1) :
      Executed i s (raise .emptyTransfer s)
  | start (hi : i = .start) (hidle : s.xfer = .idle) (hpayload : 2 ≤ s.cursor) :
      Executed i s (respond .ok 0#32 (armBurst (clearStaleLatch s)))
  | answered (d : Word) (hi : i = .isBusy ∨ i = .length ∨ i = .readFaults) :
      Executed i s (respond .ok d s)

theorem Executed.of_exec {i : Instr} {s t : State} (h : exec i s = .next t) : Executed i s t := by
  rcases exec_next_cases h with ⟨hbusy, hi, rfl⟩ | ⟨hi, rfl⟩ | ⟨hi, hidle, rfl⟩ | ⟨d, hi, hidle, hfull, rfl⟩ |
    ⟨d, hi, hidle, hroom, rfl⟩ | ⟨d, hi, hidle, hcell, rfl⟩ | ⟨hi, hidle, hempty, rfl⟩ |
    ⟨hi, hidle, hpayload, rfl⟩ | ⟨hi, d, rfl⟩
  · exact .refused hbusy hi
  · exact .illegal hi
  · exact .bufReset hi hidle
  · exact .full d hi hidle hfull
  · exact .append d hi hidle hroom
  · exact .prefixCell d hi hidle hcell
  · exact .empty hi hidle hempty
  · exact .start hi hidle hpayload
  · exact .answered d hi

/-- The ways a turn is taken: the disjuncts of `runTurn_next_cases`, named for the case splits of the
proofs. -/
inductive Taken (t : Turn) (s : State) : State → Prop
  | command {u : State} (w : CmdWord) (ht : t = .command w) (hexec : exec (decodeCommand w) s = .next u) :
      Taken t s u
  | polled (ts : List Turn) (ht : t = .pollIdle) :
      Taken t s { respond .ok (statusRead s) s with turns := ts }
  | acked (n : Nat) (ht : t = .seq ∨ t = .ack) (hset : s.cplPending = true) :
      Taken t s (ackEffect { s with choices := n })
  | finalized (n : Nat) (ht : t = .seq ∨ t = .finalize) (hdrained : finalizeEnabled s = true) :
      Taken t s (releaseBurst { s with choices := n })
  | passed (ht : t = .seq ∨ t = .ack ∨ t = .finalize ∨ t = .wire) : Taken t s s
  | wired (ht : t = .wire) (henabled : wireEnabled s = true)
      (hinside : s.armAddr + s.wireSent < bufferBytes s.params) :
      Taken t s { emit (.wire (Memory.burstByte s.mem (s.armAddr + s.wireSent) s.stream s.draws)) s with
        wireSent := s.wireSent + 1, draws := s.draws + 1 }
  | completed (ht : t = .complete) : Taken t s (completeStep s)
  | levelDriven (level : Bool) (ht : t = .txBusy level) : Taken t s (txBusyStep level s)
  | reset (ht : t = .hwReset) : Taken t s (hwResetStep s)

theorem Taken.of_runTurn {t : Turn} {s u : State} (h : runTurn t s = .next u) : Taken t s u := by
  rcases runTurn_next_cases h with ⟨w, ht, hexec⟩ | ⟨ht, ts, rfl⟩ | ⟨ht, hset, n, rfl⟩ |
    ⟨ht, hdrained, n, rfl⟩ | ⟨ht, rfl⟩ | ⟨ht, henabled, hinside, rfl⟩ | ⟨ht, rfl⟩ | ⟨level, ht, rfl⟩ | ⟨ht, rfl⟩
  · exact .command w ht hexec
  · exact .polled ts ht
  · exact .acked n ht hset
  · exact .finalized n ht hdrained
  · exact .passed ht
  · exact .wired ht henabled hinside
  · exact .completed ht
  · exact .levelDriven level ht
  · exact .reset ht

/-- The acknowledgement of R81, due or spurious, written out. -/
theorem ackEffect_eq (s : State) : ackEffect s = { s with
    trace := s.trace ++ [.cplAck], cplPending := false
    phase := if s.xfer = .busy then .drain else s.phase
    faults := if s.xfer = .busy ∧ s.phase = .armed then s.faults
      else { s.faults with spurious := true } } := by
  rcases ackEffect_cases s with ⟨hdue, heq⟩ | ⟨hstray, heq⟩
  · rw [heq, if_pos hdue, if_pos hdue.1, ackLatch_eq]
  · have hphase : (if s.xfer = .busy then .drain else s.phase) = s.phase := by
      split
      · next hbusy =>
        cases hp : s.phase with
        | armed => exact absurd ⟨hbusy, hp⟩ hstray
        | drain => rfl
      · rfl
    rw [heq, if_neg hstray, hphase]
    rfl

/-- While Busy a command can only answer and record a fault (R102). -/
theorem exec_busy {s : State} (hbusy : s.xfer = .busy) (i : Instr) :
    ∃ f r, exec i s = .next { s with faults := f, rsp := r } := by
  cases i with
  | reserved000 => exact ⟨_, _, rfl⟩
  | bufReset => exact ⟨_, _, execBufReset_busy hbusy⟩
  | append d => exact ⟨_, _, execAppend_busy hbusy⟩
  | prefixCell d => exact ⟨_, _, execPrefix_busy hbusy⟩
  | start => exact ⟨_, _, execStart_busy hbusy⟩
  | isBusy | length | readFaults => exact ⟨s.faults, _, rfl⟩

/-- A command either arms a burst, or leaves everything but buffer, cursor, FAULT and the response. -/
theorem exec_next_shape {i : Instr} {s t : State} (h : exec i s = .next t) :
    (∃ m c f r, t = { s with mem := m, cursor := c, faults := f, rsp := r }) ∨
    (i = .start ∧ s.xfer = .idle ∧ 2 ≤ s.cursor ∧
      t = respond .ok 0#32 (armBurst (clearStaleLatch s))) := by
  cases Executed.of_exec h with
  | start hi hidle hpayload => exact .inr ⟨hi, hidle, hpayload, rfl⟩
  | _ => exact .inl ⟨_, _, _, _, rfl⟩

/-- Only a TX_BUSY turn changes the level of the input. -/
theorem runTurn_txBusy_level {t : Turn} {s u : State} (h : runTurn t s = .next u) :
    t = .txBusy u.txBusy ∨ u.txBusy = s.txBusy := by
  cases Taken.of_runTurn h with
  | command w ht hexec =>
    rcases exec_next_shape hexec with ⟨m, c, f, r, rfl⟩ | ⟨-, -, -, rfl⟩
    · exact .inr rfl
    · simp [clearStaleLatch_eq]
  | acked n => simp [ackEffect_eq]
  | levelDriven level ht => exact .inl ht
  | _ => exact .inr rfl

/-- Only commands and the hardware reset write to the buffer. -/
theorem runTurn_mem {t : Turn} {s u : State} (h : runTurn t s = .next u) :
    (∃ w, t = .command w ∧ exec (decodeCommand w) s = .next u) ∨ t = .hwReset ∨ u.mem = s.mem := by
  cases Taken.of_runTurn h with
  | command w ht hexec => exact .inl ⟨w, ht, hexec⟩
  | acked n => simp [ackEffect_eq]
  | reset ht => exact .inr (.inl ht)
  | _ => exact .inr (.inr rfl)

end Sys2Proof.Machine
end

