-- ==== Sys2Proof/Proofs/BufferBytes.lean ====
section
/-! The buffer's bytes (spec/20_memory.md R41 to R43): a stored cell read back, a written cell's lanes, and
the bytes of the burst region, as `MemRead` gives them and as PLATFORM sends them
(spec/42_completion_handler.md R84). -/

namespace Sys2Proof.Machine

/-- Settles O28: the laws of `Memory.writeCell`, with `laneAddr` and `laneByte` written out. -/
theorem storedCellReadsBackLittleEndian : Obligations.StoredCellReadsBackLittleEndian :=
  fun m i v => ⟨fun _ hk => Memory.read_writeCell_lane m i v hk, Memory.readCell_writeCell_same m i v,
    fun _ ha => Memory.read_writeCell_outside m i v ha, fun hm => Memory.wf_writeCell hm i v⟩

/-- A store leaves no byte without a value that had one. -/
theorem Memory.read_writeCell_isSome {m : Memory} {a : Nat} (i : Nat) (v : Word)
    (h : (Memory.read m a).isSome) : (Memory.read (Memory.writeCell m i v) a).isSome := by
  by_cases hout : a < laneAddr i 0 ∨ laneAddr i 0 + 4 ≤ a
  · rwa [Memory.read_writeCell_outside m i v hout]
  · obtain ⟨k, hk, rfl⟩ : ∃ k < 4, a = laneAddr i k := ⟨a - 4 * i, by unfold laneAddr at *; omega⟩
    rw [Memory.read_writeCell_lane m i v hk, Option.isSome_some]

theorem Memory.readCell_writeCell_isSome {m : Memory} {j : Nat} (i : Nat) (v : Word)
    (h : (Memory.readCell m j).isSome) : (Memory.readCell (Memory.writeCell m i v) j).isSome := by
  by_cases hj : j = i
  · rw [hj, Memory.readCell_writeCell_same, Option.isSome_some]
  · rwa [Memory.readCell_writeCell_other m v hj]

/-- A cell holds a value only where its four lanes do. -/
theorem Memory.read_lane_isSome {m : Memory} {i k : Nat} (h : (Memory.readCell m i).isSome) (hk : k < 4) :
    (Memory.read m (laneAddr i k)).isSome := by
  unfold Memory.readCell at h
  split at h
  · next h0 h1 h2 h3 =>
    have hlane : k = 0 ∨ k = 1 ∨ k = 2 ∨ k = 3 := by omega
    rcases hlane with rfl | rfl | rfl | rfl <;> simp only [*, Option.isSome_some]
  · cases h

theorem laneAddr_div_mod (a : Nat) : laneAddr (a / 4) (a % 4) = a := Nat.div_add_mod a 4

theorem Memory.burstByte_of_read {m : Memory} {a : Nat} {b : Byte} (h : Memory.read m a = some b)
    (k d : Nat) : Memory.burstByte m a k d = b := by
  rw [Memory.burstByte, h]

/-- Every byte of the burst lies in a payload cell, or, where P > 0, in the prefix cell. -/
theorem Inv.burst_byte_written {s : State} (hi : Inv s) (hboot : BootReady s) {j : Nat}
    (hj : j < burstLen s.params s.cursor) : (Memory.read s.mem (burstAddr s.params + j)).isSome := by
  have hend : burstAddr s.params + burstLen s.params s.cursor = 4 * s.cursor :=
    burstAddr_add_burstLen hi.params hi.cursorRange.1
  have hcell : (Memory.readCell s.mem ((burstAddr s.params + j) / 4)).isSome := by
    rcases Nat.eq_zero_or_pos ((burstAddr s.params + j) / 4) with hprefix | hpayload
    · rw [hprefix]
      refine hboot ?_
      unfold burstAddr at hprefix
      omega
    · exact hi.payloadWritten _ (by omega) hpayload
  rw [← laneAddr_div_mod (burstAddr s.params + j)]
  exact Memory.read_lane_isSome hcell (Nat.mod_lt _ (by decide))

/-- Settles O30: byte by byte, `Inv.burst_byte_written` leaves nothing to draw. -/
theorem bootedBurstHoldsNoFreeByte : Obligations.BootedBurstHoldsNoFreeByte := by
  intro s hi hboot
  rw [memRead, List.map_map]
  refine List.map_congr_left fun j hj => ?_
  obtain ⟨b, hb⟩ := Option.isSome_iff_exists.1 (hi.burst_byte_written hboot (List.mem_range.1 hj))
  rw [Function.comp_apply, Memory.burstByte_of_read hb, hb]

/-- The byte that is next to be sent lies inside the buffer. -/
theorem Inv.next_byte_inside {s : State} (hi : Inv s) (hbusy : s.xfer = .busy)
    (hleft : s.wireSent < s.armLen) : s.armAddr + s.wireSent < bufferBytes s.params := by
  obtain ⟨-, -, -, haddr, hlen⟩ := hi.busy hbusy
  have hinside := burst_ends_inside_buffer hi.params hi.cursorRange.1 hi.cursorRange.2
  omega

theorem wireStep_enabled {s : State} (henabled : wireEnabled s = true)
    (hinside : s.armAddr + s.wireSent < bufferBytes s.params) :
    wireStep s = .next { s with
      trace := s.trace ++ [.wire (Memory.burstByte s.mem (s.armAddr + s.wireSent) s.stream s.draws)]
      wireSent := s.wireSent + 1, draws := s.draws + 1 } :=
  (if_pos henabled).trans (if_pos hinside)

/-- Settles O35: the turn is enabled and its byte lies inside the buffer (`Inv.next_byte_inside`), so it is
sent. -/
theorem wireSendsTheNextBurstByte : Obligations.WireSendsTheNextBurstByte := by
  intro s hi hbusy harmed hclear hleft
  exact ⟨_, fun c hc => Memory.burstByte_of_read hc _ _,
    wireStep_enabled (wireEnabled_iff.2 ⟨hbusy, harmed, hclear, hleft⟩) (hi.next_byte_inside hbusy hleft)⟩

end Sys2Proof.Machine
end

