-- ==== Sys2Proof/Proofs/Invariants.lean ====
section
/-! The engine's invariants (spec/10_state.md R35): one lemma per state operation, then that power-on meets
them, that every step keeps them (O38) and that no step from such a state stops (O40). -/

namespace Sys2Proof.Machine

/-! ### What each operation keeps -/

/-- The response, FAULT, the inputs, the trace and the model's counters are no part of the invariants. -/
theorem Inv.with_outputs {s : State} (hi : Inv s) (faults : FaultBits) (txBusy cplPending : Bool)
    (turns : List Turn) (rsp : Option Response) (trace : List Event) (draws choices : Nat) :
    Inv { s with faults, txBusy, cplPending, turns, rsp, trace, draws, choices } :=
  hi.congr rfl rfl rfl rfl rfl rfl rfl rfl rfl rfl

/-- Storing to a cell of the buffer while Idle. -/
theorem Inv.store {s : State} (hi : Inv s) {i : Nat} (hcell : i < s.params.capacity) (v : Word) :
    Inv { s with mem := Memory.writeCell s.mem i v } where
  params := hi.params
  memWf := Memory.wf_writeCell hi.memWf i v
  memInside c hc := by
    rcases Memory.mem_writeCell hc with hlane | hold
    · show c.1 < 4 * s.params.capacity
      omega
    · exact hi.memInside c hold
  wholeCells c hc k hk := by
    rcases Memory.mem_writeCell hc with hlane | hold
    · show (Memory.read _ (laneAddr (c.1 / 4) k)).isSome
      rw [hlane, Memory.read_writeCell_lane s.mem i v hk, Option.isSome_some]
    · exact Memory.read_writeCell_isSome i v (hi.wholeCells c hold k hk)
  payloadWritten j hj h1 := Memory.readCell_writeCell_isSome i v (hi.payloadWritten j hj h1)
  cursorRange := hi.cursorRange
  latchWidths := hi.latchWidths
  idle := hi.idle
  busy := hi.busy
  wireProgress := hi.wireProgress

/-- While Idle the cursor may move to any place below which the payload cells are written. -/
theorem Inv.move_cursor {s : State} (hi : Inv s) (hidle : s.xfer = .idle) {c : Nat} (h1 : 1 ≤ c)
    (hc : c ≤ s.params.capacity) (hwritten : ∀ i < c, 1 ≤ i → (Memory.readCell s.mem i).isSome) :
    Inv { s with cursor := c } :=
  { hi with
    payloadWritten := hwritten
    cursorRange := ⟨h1, hc⟩
    busy := fun hbusy => TransferState.noConfusion (hidle.symm.trans hbusy) }

/-- Cursor 1: no payload cell is below it. -/
theorem Inv.clear_cursor {s : State} (hi : Inv s) (hidle : s.xfer = .idle) : Inv { s with cursor := 1 } :=
  hi.move_cursor hidle (Nat.le_refl 1) (Nat.le_trans hi.cursorRange.1 hi.cursorRange.2) (by omega)

/-- APPEND: the cell at the cursor is stored, so the cursor may pass it. -/
theorem Inv.append {s : State} (hi : Inv s) (hidle : s.xfer = .idle) (hroom : s.cursor < s.params.capacity)
    (v : Word) : Inv { s with mem := Memory.writeCell s.mem s.cursor v, cursor := s.cursor + 1 } := by
  refine (hi.store hroom v).move_cursor hidle (Nat.succ_pos _) hroom fun i hlt h1 => ?_
  rcases Nat.lt_succ_iff_lt_or_eq.1 hlt with hbelow | rfl
  · exact Memory.readCell_writeCell_isSome s.cursor v (hi.payloadWritten i hbelow h1)
  · exact Option.isSome_of_mem (Memory.readCell_writeCell_same s.mem s.cursor v)

/-- START's arming: the latches hold the burst of a cursor of at least 2. -/
theorem Inv.armBurst {s : State} (hi : Inv s) (hpayload : 2 ≤ s.cursor) : Inv (armBurst s) :=
  { params := hi.params
    memWf := hi.memWf
    memInside := hi.memInside
    wholeCells := hi.wholeCells
    payloadWritten := hi.payloadWritten
    cursorRange := hi.cursorRange
    latchWidths := burst_fits_latches hi.params hi.cursorRange.1 hi.cursorRange.2
    idle := fun hidle => TransferState.noConfusion hidle
    busy := fun _ => ⟨rfl, rfl, hpayload, rfl, rfl⟩
    wireProgress := fun _ => Nat.zero_le _ }

theorem Inv.clearStaleLatch {s : State} (hi : Inv s) : Inv (clearStaleLatch s) := by
  rw [clearStaleLatch_eq]
  exact hi.with_outputs _ _ _ _ _ _ _ _

/-- ACK moves the phase only while Busy, where the invariants do not name it. -/
theorem Inv.ackEffect {s : State} (hi : Inv s) : Inv (ackEffect s) := by
  rcases ackEffect_cases s with ⟨⟨hbusy, -⟩, heq⟩ | ⟨-, heq⟩ <;> rw [heq]
  · exact { hi with idle := fun hidle => TransferState.noConfusion (hbusy.symm.trans hidle) }
  · exact hi.with_outputs _ _ _ _ _ _ _ _

theorem Inv.releaseBurst {s : State} (hi : Inv s) : Inv (releaseBurst s) :=
  { params := hi.params
    memWf := hi.memWf
    memInside := hi.memInside
    wholeCells := hi.wholeCells
    payloadWritten := fun _ hlt h1 => absurd hlt (Nat.not_lt.2 h1)
    cursorRange := ⟨Nat.le_refl 1, Nat.le_trans hi.cursorRange.1 hi.cursorRange.2⟩
    latchWidths := hi.latchWidths
    idle := fun _ => ⟨rfl, rfl, rfl⟩
    busy := fun hbusy => TransferState.noConfusion hbusy
    wireProgress := fun hbusy => TransferState.noConfusion hbusy }

/-- One more byte of the burst sent, where one was left. -/
theorem Inv.send_byte {s : State} (hi : Inv s) (hleft : s.wireSent < s.armLen) :
    Inv { s with wireSent := s.wireSent + 1 } :=
  { hi with wireProgress := fun _ => hleft }

theorem inv_powerOn {p : Config.Params} (hp : p.wf) (k : Nat) : Inv (State.powerOn p k) :=
  { params := hp
    memWf := List.Pairwise.nil
    memInside := fun _ hc => absurd hc List.not_mem_nil
    wholeCells := fun _ hc => absurd hc List.not_mem_nil
    payloadWritten := fun _ hlt h1 => absurd hlt (Nat.not_lt.2 h1)
    cursorRange := ⟨Nat.le_refl 1, Nat.le_of_succ_le hp.1⟩
    latchWidths := ⟨Nat.two_pow_pos _, Nat.two_pow_pos _⟩
    idle := fun _ => ⟨rfl, rfl, rfl⟩
    busy := fun hbusy => TransferState.noConfusion hbusy
    wireProgress := fun hbusy => TransferState.noConfusion hbusy }

theorem Inv.hwResetStep {s : State} (hi : Inv s) : Inv (hwResetStep s) :=
  (inv_powerOn hi.params s.stream).with_outputs _ _ _ _ _ _ _ _

/-! ### Commands, turns, steps -/

theorem Inv.raise {s : State} (hi : Inv s) (e : Exc) : Inv (raise e s) := by
  cases e <;> exact hi.with_outputs _ _ _ _ _ _ _ _

theorem Inv.respond {s : State} (hi : Inv s) (st : Status) (d : Word) : Inv (respond st d s) :=
  hi.with_outputs _ _ _ _ _ _ _ _

theorem exec_keeps_inv {i : Instr} {s t : State} (hi : Inv s) (h : exec i s = .next t) : Inv t := by
  cases Executed.of_exec h with
  | refused | illegal | full | empty => exact hi.raise _
  | answered d => exact hi.respond _ d
  | bufReset _ hidle => exact (hi.clear_cursor hidle).respond _ _
  | append d _ hidle hroom => exact (hi.append hidle hroom d).respond _ _
  | prefixCell d _ _ hcell => exact (hi.store hcell d).respond _ _
  | start _ _ hpayload =>
    have hcursor : (Machine.clearStaleLatch s).cursor = s.cursor := by rw [clearStaleLatch_eq]
    exact (hi.clearStaleLatch.armBurst (hcursor ▸ hpayload)).respond _ _

theorem runTurn_keeps_inv {t : Turn} {s u : State} (hi : Inv s) (h : runTurn t s = .next u) : Inv u := by
  cases Taken.of_runTurn h with
  | command w _ hexec => exact exec_keeps_inv hi hexec
  | polled | completed | levelDriven => exact hi.with_outputs _ _ _ _ _ _ _ _
  | acked n => exact Inv.ackEffect (hi.with_outputs _ _ _ _ _ _ _ n)
  | finalized n => exact Inv.releaseBurst (hi.with_outputs _ _ _ _ _ _ _ n)
  | passed => exact hi
  | wired _ henabled =>
    obtain ⟨-, -, -, hleft⟩ := wireEnabled_iff.1 henabled
    exact (hi.send_byte hleft).with_outputs _ _ _ _ _ _ _ _
  | reset => exact hi.hwResetStep

theorem runTurn_keeps_params_stream {t : Turn} {s u : State} (h : runTurn t s = .next u) :
    u.params = s.params ∧ u.stream = s.stream := by
  cases Taken.of_runTurn h with
  | command w _ hexec =>
    rcases exec_next_shape hexec with ⟨m, c, f, r, rfl⟩ | ⟨-, -, -, rfl⟩
    · exact ⟨rfl, rfl⟩
    · simp [clearStaleLatch_eq]
  | acked n => simp [ackEffect_eq]
  | _ => exact ⟨rfl, rfl⟩

theorem step_keeps_params_stream {s t : State} (h : step s = .next t) :
    t.params = s.params ∧ t.stream = s.stream := by
  obtain ⟨rest, hturn⟩ := step_eq_runTurn s
  have hkept := runTurn_keeps_params_stream (hturn.symm.trans h)
  exact hkept

/-- Settles O38: the turn is taken in a state that differs in turns and response alone, and
`runTurn_keeps_inv` splits on what the turn does. -/
theorem everyStepKeepsTheInvariants : Obligations.EveryStepKeepsTheInvariants := by
  intro s t hi h
  obtain ⟨rest, hturn⟩ := step_eq_runTurn s
  have hkept : Inv t := runTurn_keeps_inv (hi.with_outputs _ _ _ rest none _ _ _) (hturn.symm.trans h)
  exact ⟨hkept, step_keeps_params_stream h⟩

/-! ### No step stops -/

theorem Inv.exec_next {s : State} (hi : Inv s) (i : Instr) : ∃ t, exec i s = .next t := by
  rcases TransferState.idle_or_busy s.xfer with hidle | hbusy
  case inr =>
    obtain ⟨f, r, h⟩ := exec_busy hbusy i
    exact ⟨_, h⟩
  case inl =>
    cases i with
    | bufReset => exact ⟨_, execBufReset_idle hidle⟩
    | append d =>
      rcases Nat.eq_or_lt_of_le hi.cursorRange.2 with hfull | hroom
      · exact ⟨_, execAppend_full hidle hfull⟩
      · exact ⟨_, execAppend_room hidle hroom⟩
    | prefixCell d => exact ⟨_, execPrefix_idle hidle (Nat.zero_lt_of_lt hi.params.1)⟩
    | start =>
      by_cases hempty : s.cursor ≤ 1
      · exact ⟨_, execStart_empty hidle hempty⟩
      · exact ⟨_, execStart_arms hidle hempty⟩
    | reserved000 | isBusy | length | readFaults => exact ⟨_, rfl⟩

theorem Inv.wireStep_next {s : State} (hi : Inv s) : ∃ t, wireStep s = .next t := by
  cases henabled : wireEnabled s with
  | false => exact ⟨s, wireStep_disabled henabled⟩
  | true =>
    obtain ⟨hbusy, -, -, hleft⟩ := wireEnabled_iff.1 henabled
    exact ⟨_, wireStep_enabled henabled (hi.next_byte_inside hbusy hleft)⟩

theorem Inv.runTurn_next {s : State} (hi : Inv s) (t : Turn) : ∃ u, runTurn t s = .next u := by
  cases t with
  | command w => exact hi.exec_next (decodeCommand w)
  | pollIdle => exact ⟨_, pollStep_eq s⟩
  | wire => exact hi.wireStep_next
  | seq | ack | finalize | complete | txBusy | hwReset => exact ⟨_, rfl⟩

/-- Settles O40: of the turns only a command and a WIRE turn can stop, and both stay inside the buffer
(`Inv.exec_next`, `Inv.wireStep_next`). -/
theorem invariantStatesNeverStop : Obligations.InvariantStatesNeverStop := by
  intro s hi
  obtain ⟨rest, hturn⟩ := step_eq_runTurn s
  rw [hturn]
  exact (hi.with_outputs _ _ _ rest none _ _ _).runTurn_next _

/-! ### Reset, and the widths -/

/-- The parameters of the spec, whatever the two OPEN ones are: the sentinel is one of 1 to 255. -/
theorem params_wf : Config.params.wf := by
  refine ⟨by decide, by decide, ?_, by decide⟩
  have hbound : Config.freeSentinel.val < 255 := Config.freeSentinel.isLt
  show BitVec.ofNat 8 (Config.freeSentinel.val + 1) ≠ 0#8
  bv_omega

/-- Settles O37: `inv_powerOn` and `params_wf`; the empty trace stands outside a frame. -/
theorem powerOnMeetsTheInvariants : Obligations.PowerOnMeetsTheInvariants :=
  ⟨fun _ k hp => ⟨inv_powerOn hp k, rfl⟩, params_wf, rfl⟩

/-- `bitWidth` is the least width: one bit fewer does not hold the value. -/
theorem two_pow_bitWidth_pred_le {n : Nat} (h : n ≠ 0) : 2 ^ (Config.bitWidth n - 1) ≤ n :=
  Nat.log2_self_le h

/-- Settles O41: the widths are least by `two_pow_bitWidth_pred_le`, cursor and LENGTH are at most what
they are the widths of, and the latches are bounded by the invariants. -/
theorem registersFitTheirWidths : Obligations.RegistersFitTheirWidths := by
  intro s hi
  obtain ⟨hcap, -⟩ := hi.params
  obtain ⟨hfirst, hlast⟩ := hi.cursorRange
  obtain ⟨haddr, hlen⟩ := hi.latchWidths
  have hlength : (lengthRead s).toNat < 2 ^ s.params.latchBits := by
    have hwidth : 4 * s.params.capacity - 1 < 2 ^ s.params.latchBits := lt_two_pow_bitWidth _
    have hbytes : lengthInBytes s.cursor ≤ 4 * (s.params.capacity - 1) := lengthInBytes_le hlast
    rw [lengthRead_toNat hi.params hlast]
    omega
  refine ⟨Nat.lt_of_le_of_lt hlast (lt_two_pow_bitWidth _), two_pow_bitWidth_pred_le (by omega), haddr, hlen,
    hlength, fun hcapacity => ?_⟩
  rw [Config.Params.cursorBits, Config.Params.latchBits, hcapacity]
  decide

/-- Settles O1: the fields of `State.powerOn`. -/
theorem powerOnLeavesTheStatedValues : Obligations.PowerOnLeavesTheStatedValues :=
  fun _ _ => ⟨rfl, rfl, rfl, rfl, rfl, rfl, rfl, fun _ => rfl, rfl⟩

/-- Settles O2: the reset leaves the engine Idle, where the late completion is spurious (O32's clause on a
stray completion). -/
theorem hardwareResetAbandonsTransfer : Obligations.HardwareResetAbandonsTransfer := by
  intro s
  obtain ⟨-, hspurious, -⟩ := ackBeginsDrainOrIsSpurious (completeStep (hwResetStep s))
  refine ⟨hwResetStep s, rfl, rfl, rfl, rfl, rfl, rfl, rfl, rfl, rfl, fun _ => rfl, rfl,
    completeStep (hwResetStep s), _, rfl, hspurious rfl (.inl rfl), ?_⟩
  rw [completeStep_trace, hwResetStep_trace, List.append_assoc, List.append_assoc]
  rfl

end Sys2Proof.Machine
end

