-- ==== Sys2Proof/Proofs/TraceFrames.lean ====
section
/-! The order of the trace (spec/42_completion_handler.md R90): every step adds events that lead from where
the engine stands in a frame to where it then stands (O39). -/

namespace Sys2Proof.Machine

/-! ### Where the engine stands -/

theorem State.frame_idle {s : State} (h : s.xfer = .idle) : s.frame = .idle := by
  rw [State.frame, h]

theorem State.frame_armed {s : State} (hbusy : s.xfer = .busy) (harmed : s.phase = .armed) :
    s.frame = .armed := by
  rw [State.frame, hbusy, harmed]

theorem State.frame_drain {s : State} (hbusy : s.xfer = .busy) (hdrain : s.phase = .drain) :
    s.frame = .drain := by
  rw [State.frame, hbusy, hdrain]

/-! ### Reading on -/

/-- A step that adds the events `es` keeps the trace in order if they lead from its first frame position to
its last. -/
theorem Framed.extend {s t : State} (hs : Framed s) (es : List Event) (htrace : t.trace = s.trace ++ es)
    (hread : Frame.after (some s.frame) es = some t.frame) : Framed t := by
  have hbefore : Frame.after (some .idle) s.trace = some s.frame := hs
  rw [Framed, frameOf, htrace, Frame.after_append, hbefore, hread]

/-- A COMPLETE keeps the place (R80). -/
theorem Frame.after_complete (f : Frame) : Frame.after (some f) [.complete] = some f := by cases f <;> rfl

/-- A hardware reset abandons the frame (R121). -/
theorem Frame.after_hwReset (f : Frame) : Frame.after (some f) [.hwReset] = some .idle := by cases f <;> rfl

/-! ### The operations that emit -/

theorem Framed.clearStaleLatch {s : State} (hs : Framed s) (hidle : s.xfer = .idle) :
    Framed (clearStaleLatch s) := by
  have hframe : s.frame = .idle := State.frame_idle hidle
  have hafter : (Machine.clearStaleLatch s).frame = .idle :=
    State.frame_idle (by rw [clearStaleLatch_eq]; exact hidle)
  refine hs.extend (if s.cplPending then [.cplAck] else []) (by rw [clearStaleLatch_eq]) ?_
  rw [hframe, hafter]
  split <;> rfl

theorem Framed.armBurst {s : State} (hs : Framed s) (hidle : s.xfer = .idle) : Framed (armBurst s) := by
  refine hs.extend _ (by rw [armBurst_eq]) ?_
  rw [State.frame_idle hidle]
  rfl

/-- CPL_ACK ends the ARMED part of a frame, and keeps the place anywhere else (R81, R105). -/
theorem Framed.ackEffect {s : State} (hs : Framed s) : Framed (ackEffect s) := by
  refine hs.extend [.cplAck] (by rw [ackEffect_eq]) ?_
  rcases TransferState.idle_or_busy s.xfer with hidle | hbusy
  · rw [State.frame_idle hidle, State.frame_idle (by rw [ackEffect_eq]; exact hidle)]
    rfl
  · have hafter : (Machine.ackEffect s).frame = .drain :=
      State.frame_drain (by rw [ackEffect_eq]; exact hbusy) (by rw [ackEffect_eq]; exact if_pos hbusy)
    rw [hafter]
    cases hphase : s.phase with
    | armed => rw [State.frame_armed hbusy hphase]; rfl
    | drain => rw [State.frame_drain hbusy hphase]; rfl

theorem Framed.releaseBurst {s : State} (hs : Framed s) (hbusy : s.xfer = .busy) (hdrain : s.phase = .drain) :
    Framed (releaseBurst s) := by
  refine hs.extend _ (by rw [releaseBurst_eq]) ?_
  rw [State.frame_drain hbusy hdrain]
  rfl

/-! ### Commands, turns, steps -/

theorem exec_keeps_framed {i : Instr} {s t : State} (hs : Framed s) (h : exec i s = .next t) : Framed t := by
  rcases exec_next_shape h with ⟨m, c, f, r, rfl⟩ | ⟨-, hidle, -, rfl⟩
  · exact hs
  · have hidle' : (clearStaleLatch s).xfer = .idle := by rw [clearStaleLatch_eq]; exact hidle
    exact (hs.clearStaleLatch hidle).armBurst hidle'

theorem runTurn_keeps_framed {t : Turn} {s u : State} (hs : Framed s) (h : runTurn t s = .next u) :
    Framed u := by
  cases Taken.of_runTurn h with
  | command w _ hexec => exact exec_keeps_framed hs hexec
  | polled | levelDriven | passed => exact hs
  | acked n => exact Framed.ackEffect (s := { s with choices := n }) hs
  | finalized n _ hdrained =>
    obtain ⟨hbusy, hdrain, -⟩ := finalizeEnabled_iff.1 hdrained
    exact Framed.releaseBurst (s := { s with choices := n }) hs hbusy hdrain
  | wired _ henabled =>
    obtain ⟨hbusy, harmed, -, -⟩ := wireEnabled_iff.1 henabled
    have hframe : s.frame = .armed := State.frame_armed hbusy harmed
    refine hs.extend [.wire _] rfl ?_
    rw [hframe]
    exact congrArg some hframe.symm
  | completed => exact hs.extend [.complete] rfl (Frame.after_complete _)
  | reset => exact hs.extend [.hwReset] rfl (Frame.after_hwReset _)

/-- Settles O39: `runTurn_keeps_framed` splits on what the turn does; the turns and the response are no
part of the trace. -/
theorem everyStepKeepsTheTraceFramed : Obligations.EveryStepKeepsTheTraceFramed := by
  intro s t hs h
  obtain ⟨rest, hturn⟩ := step_eq_runTurn s
  exact runTurn_keeps_framed (s := { s with turns := rest, rsp := none }) hs (hturn.symm.trans h)

/-- Settles O47: a zero answer is given only while Idle (`statusRead_eq_zero_iff`), where the invariants
and the frame say the rest. -/
theorem idleAnswerMeansTheFrameIsClosed : Obligations.IdleAnswerMeansTheFrameIsClosed := by
  intro s t hi hs h hrsp
  cases h
  have hzero : statusRead s = 0#32 := by
    injection hrsp with hresponse
    injection hresponse
  have hidle : s.xfer = .idle := (statusRead_eq_zero_iff hi.params).1 hzero
  obtain ⟨hcs, hrx, -⟩ := hi.idle hidle
  exact ⟨hcs, hrx, hs.trans (congrArg some (State.frame_idle hidle))⟩

end Sys2Proof.Machine
end

