-- ==== Sys2Proof/Proofs/CommandFrames.lean ====
section
/-! What each command leaves unchanged (spec/40_transfer_buffer.md, spec/41_transfer_controller.md), and
the response each gives (spec/30_encoding.md R61). -/

namespace Sys2Proof.Machine

/-- Settles O26: of the six, BUF_RESET sets the cursor and START arms the burst; the others raise or
answer, which the field lemmas of `raise` and `respond` bound. -/
theorem frameOfCommandsThatStoreNothing : Obligations.FrameOfCommandsThatStoreNothing := by
  intro s t i hi h
  cases Executed.of_exec h with
  | refused hbusy hmutating =>
    have hclash : i = .bufReset ∨ i = .start := by
      rcases hmutating with hi' | hi' | ⟨d, rfl⟩ | ⟨d, rfl⟩
      · exact .inl hi'
      · exact .inr hi'
      all_goals simp at hi
    rw [raise_concurrentAccess]
    rcases hclash with rfl | rfl <;> simp
  | illegal hi' => subst hi'; rw [raise_illegal]; simp
  | bufReset hi' => subst hi'; simp
  | full d hi' | append d hi' | prefixCell d hi' => subst hi'; simp at hi
  | empty hi' => subst hi'; rw [raise_emptyTransfer]; simp
  | start hi' => subst hi'; rw [clearStaleLatch_eq]; simp
  | answered d => simp

/-- What an APPEND can have done: refused while Busy or at CAPACITY, else the cell at the cursor is stored.
-/
theorem execAppend_next_cases {s t : State} {d : Word} (h : execAppend d s = .next t) :
    (s.xfer = .busy ∧ t = raise .concurrentAccess s) ∨
    (s.xfer = .idle ∧ s.cursor = s.params.capacity ∧ t = raise .bufferFull s) ∨
    (s.xfer = .idle ∧ s.cursor < s.params.capacity ∧ t = respond .ok 0#32
      { s with mem := Memory.writeCell s.mem s.cursor d, cursor := s.cursor + 1 }) := by
  cases Executed.of_exec (i := .append d) h with
  | refused hbusy => exact .inl ⟨hbusy, rfl⟩
  | full _ hi hidle hfull => exact .inr (.inl ⟨hidle, hfull, rfl⟩)
  | append _ hi hidle hroom => cases hi; exact .inr (.inr ⟨hidle, hroom, rfl⟩)
  | illegal hi | bufReset hi | prefixCell _ hi | empty hi | start hi => cases hi
  | answered _ hi => simp at hi

/-- What a PREFIX can have done: refused while Busy, else cell 0 is stored. -/
theorem execPrefix_next_cases {s t : State} {d : Word} (h : execPrefix d s = .next t) :
    (s.xfer = .busy ∧ t = raise .concurrentAccess s) ∨
    (s.xfer = .idle ∧ t = respond .ok 0#32 { s with mem := Memory.writeCell s.mem 0 d }) := by
  cases Executed.of_exec (i := .prefixCell d) h with
  | refused hbusy => exact .inl ⟨hbusy, rfl⟩
  | prefixCell _ hi hidle => cases hi; exact .inr ⟨hidle, rfl⟩
  | illegal hi | bufReset hi | full _ hi | append _ hi | empty hi | start hi => cases hi
  | answered _ hi => simp at hi

/-- Settles O27: the forms of the two commands (`execAppend_next_cases`, `execPrefix_next_cases`); a store
leaves the bytes outside its cell alone. -/
theorem frameOfStoringCommands : Obligations.FrameOfStoringCommands := by
  refine fun s t d => ⟨fun h => ?_, fun h => ?_⟩
  · rcases execAppend_next_cases h with ⟨hbusy, rfl⟩ | ⟨hidle, -, rfl⟩ | ⟨hidle, hroom, rfl⟩
    · exact ⟨fun _ _ => rfl, fun _ => ⟨fun _ => rfl, rfl⟩, by simp [hbusy], rfl⟩
    · exact ⟨fun _ _ => rfl, fun _ => ⟨fun _ => rfl, rfl⟩, fun _ => rfl, rfl⟩
    · exact ⟨fun a ha => Memory.read_writeCell_outside s.mem s.cursor d ha,
        by simp [hidle, Nat.ne_of_lt hroom], fun _ => rfl, rfl⟩
  · rcases execPrefix_next_cases h with ⟨hbusy, rfl⟩ | ⟨hidle, rfl⟩
    · exact ⟨fun _ _ => rfl, fun _ _ => rfl, by simp [hbusy], rfl⟩
    · exact ⟨fun a ha => Memory.read_writeCell_outside s.mem 0 d ha, by simp [hidle], fun _ => rfl, rfl⟩

/-- Settles O57: case by case the response is the one `raise` or `respond` gives, and the case's own
hypotheses decide which exception applies. -/
theorem everyCommandGetsItsResponse : Obligations.EveryCommandGetsItsResponse := by
  intro i s t h
  cases Executed.of_exec h with
  | refused hbusy hmutating =>
    rw [raise_concurrentAccess]
    rcases hmutating with rfl | rfl | ⟨d, rfl⟩ | ⟨d, rfl⟩ <;> simp [hbusy]
  | illegal hi => subst hi; rw [raise_illegal]; simp
  | bufReset hi hidle | prefixCell d hi hidle | start hi hidle => subst hi; simp [hidle]
  | full d hi hidle hfull => subst hi; rw [raise_bufferFull]; simp [hidle, hfull]
  | append d hi hidle hroom => subst hi; simp [hidle, Nat.ne_of_lt hroom]
  | empty hi hidle => subst hi; rw [raise_emptyTransfer]; simp [hidle]
  | answered d hi => rcases hi with rfl | rfl | rfl <;> simp

/-- Settles O56: the values of `Status.code`. -/
theorem responseStatusCodes : Obligations.ResponseStatusCodes := ⟨rfl, rfl, rfl, rfl⟩

end Sys2Proof.Machine
end

