-- ==== Sys2Proof/Proofs/Safety.lean ====
section
/-! What no step does: clear a FAULT bit (spec/10_state.md R33), write W behind the back of its owner
(spec/20_memory.md R44, R51, R57), or enter or leave Busy but as R22 says. -/

namespace Sys2Proof.Machine

/-! ### FAULT is sticky -/

/-- Each bit set in `f` is set in `g`. -/
def FaultBits.KeptIn (f g : FaultBits) : Prop :=
  (f.conc = true → g.conc = true) ∧ (f.spurious = true → g.spurious = true) ∧
    (f.illegal = true → g.illegal = true)

theorem FaultBits.KeptIn.refl (f : FaultBits) : f.KeptIn f := ⟨id, id, id⟩

theorem Exc.faultsAfter_keeps (p : Config.Params) (e : Exc) (f : FaultBits) : f.KeptIn (e.faultsAfter p f) := by
  cases e with
  | bufferFull | emptyTransfer => exact .refl f
  | concurrentAccess => exact ⟨fun h => by simp [Exc.faultsAfter, h], id, id⟩
  | illegal => exact ⟨id, id, fun _ => rfl⟩
  | spuriousCompletion => exact ⟨id, fun _ => rfl, id⟩

theorem raise_keeps_faults (e : Exc) (s : State) : s.faults.KeptIn (raise e s).faults := by
  rw [raise_faults]
  exact Exc.faultsAfter_keeps s.params e s.faults

theorem clearStaleLatch_keeps_faults (s : State) : s.faults.KeptIn (clearStaleLatch s).faults := by
  rcases clearStaleLatch_cases s with ⟨-, heq⟩ | ⟨-, heq⟩ <;> rw [heq]
  · exact .refl _
  · exact raise_keeps_faults .spuriousCompletion (ackLatch s)

theorem ackEffect_keeps_faults (s : State) : s.faults.KeptIn (ackEffect s).faults := by
  rcases ackEffect_cases s with ⟨-, heq⟩ | ⟨-, heq⟩ <;> rw [heq]
  · exact .refl _
  · exact raise_keeps_faults .spuriousCompletion (ackLatch s)

theorem exec_keeps_faults {i : Instr} {s t : State} (h : exec i s = .next t) : s.faults.KeptIn t.faults := by
  cases Executed.of_exec h with
  | refused | illegal | full | empty => exact raise_keeps_faults _ s
  | start =>
    rw [respond_faults, armBurst_faults]
    exact clearStaleLatch_keeps_faults s
  | bufReset | append | prefixCell | answered => exact .refl _

theorem runTurn_keeps_faults {t : Turn} {s u : State} (ht : t ≠ .hwReset) (h : runTurn t s = .next u) :
    s.faults.KeptIn u.faults := by
  cases Taken.of_runTurn h with
  | command w _ hexec => exact exec_keeps_faults hexec
  | acked n => exact ackEffect_keeps_faults { s with choices := n }
  | reset hreset => exact absurd hreset ht
  | polled | finalized | passed | wired | completed | levelDriven => exact .refl _

/-- Settles O25: only `raise` writes FAULT, and it clears no bit (`Exc.faultsAfter_keeps`). -/
theorem faultBitsAreSticky : Obligations.FaultBitsAreSticky := by
  intro s t h hreset
  obtain ⟨rest, hturn⟩ := step_eq_runTurn s
  have hne : (nextTurn s).1 ≠ .hwReset := fun he => hreset (head?_of_nextTurn (by decide) he)
  exact runTurn_keeps_faults (s := { s with turns := rest, rsp := none }) hne (hturn.symm.trans h)

/-! ### While Busy -/

/-- What R35 (d) and R49 hold fixed while a burst is armed or drains: the buffer, the cursor, the burst
descriptor and the outputs; and the drain wait, once begun. -/
structure BurstHeld (s t : State) : Prop where
  xfer : t.xfer = .busy
  mem : t.mem = s.mem
  cursor : t.cursor = s.cursor
  armAddr : t.armAddr = s.armAddr
  armLen : t.armLen = s.armLen
  csActive : t.csActive = s.csActive
  rxSuppressed : t.rxSuppressed = s.rxSuppressed
  drain : s.phase = .drain → t.phase = .drain

/-- While Busy every turn holds the burst but a hardware reset and an enabled FINALIZE. -/
theorem runTurn_busy {t : Turn} {s u : State} (hbusy : s.xfer = .busy) (h : runTurn t s = .next u) :
    BurstHeld s u ∨ t = .hwReset ∨
      (finalizeEnabled s = true ∧ ∃ n, u = releaseBurst { s with choices := n }) := by
  cases Taken.of_runTurn h with
  | command w _ hexec =>
    obtain ⟨f, r, hbusy_exec⟩ := exec_busy hbusy (decodeCommand w)
    cases hbusy_exec.symm.trans hexec
    exact .inl ⟨hbusy, rfl, rfl, rfl, rfl, rfl, rfl, id⟩
  | acked n =>
    refine .inl ?_
    rw [ackEffect_eq]
    exact ⟨hbusy, rfl, rfl, rfl, rfl, rfl, rfl, fun _ => if_pos hbusy⟩
  | finalized n _ hdrained => exact .inr (.inr ⟨hdrained, n, rfl⟩)
  | reset hreset => exact .inr (.inl hreset)
  | polled | passed | wired | completed | levelDriven =>
    exact .inl ⟨hbusy, rfl, rfl, rfl, rfl, rfl, rfl, id⟩

theorem step_busy {s t : State} (hbusy : s.xfer = .busy) (h : step s = .next t) :
    BurstHeld s t ∨ (nextTurn s).1 = .hwReset ∨ (finalizeEnabled s = true ∧
      ∃ rest n, t = releaseBurst { s with turns := rest, rsp := none, choices := n }) := by
  obtain ⟨rest, hturn⟩ := step_eq_runTurn s
  rcases runTurn_busy (s := { s with turns := rest, rsp := none }) hbusy (hturn.symm.trans h) with
    hheld | hreset | ⟨hdrained, n, ht⟩
  · exact .inl ⟨hheld.xfer, hheld.mem, hheld.cursor, hheld.armAddr, hheld.armLen, hheld.csActive,
      hheld.rxSuppressed, hheld.drain⟩
  · exact .inr (.inl hreset)
  · exact .inr (.inr ⟨hdrained, rest, n, ht⟩)

theorem step_hwReset {s t : State} (hreset : (nextTurn s).1 = .hwReset) (h : step s = .next t) :
    ∃ rest, t = hwResetStep { s with turns := rest, rsp := none } := by
  obtain ⟨rest, hturn⟩ := step_eq_runTurn s
  rw [hturn, hreset] at h
  cases h
  exact ⟨rest, rfl⟩

/-- Settles O42: of the turns that `step_busy` tells apart, the two that do not hold the burst leave the
engine Idle. -/
theorem busyFreezesBufferAndCursor : Obligations.BusyFreezesBufferAndCursor := by
  intro s t h hbusy hbusy'
  rcases step_busy hbusy h with hheld | hreset | ⟨-, rest, n, rfl⟩
  · exact ⟨hheld.mem, hheld.cursor, hheld.armAddr, hheld.armLen, hheld.csActive, hheld.rxSuppressed⟩
  · obtain ⟨rest, rfl⟩ := step_hwReset hreset h
    cases hbusy'
  · cases hbusy'

/-- Settles O43: of the turns that `step_busy` tells apart, the one that holds the burst stays Busy, and
the release is FINALIZE's, with its enabling condition. -/
theorem onlyFinalizeOrResetLeavesBusy : Obligations.OnlyFinalizeOrResetLeavesBusy := by
  intro s t h hbusy hidle
  rcases step_busy hbusy h with hheld | hreset | ⟨hdrained, rest, n, rfl⟩
  · cases hheld.xfer.symm.trans hidle
  · exact .inl (head?_of_nextTurn (by decide) hreset)
  · obtain ⟨-, hdrain, htx⟩ := finalizeEnabled_iff.1 hdrained
    refine .inr ⟨hdrain, htx, ?_, rfl, rfl, rfl⟩
    rw [releaseBurst_eq]

/-! ### Entering Busy -/

/-- From Idle only a START with a payload makes the engine Busy. -/
theorem runTurn_enters_busy {t : Turn} {s u : State} (hidle : s.xfer = .idle) (hbusy : u.xfer = .busy)
    (h : runTurn t s = .next u) : (∃ w, t = .command w ∧ decodeCommand w = .start) ∧ 2 ≤ s.cursor ∧
      u = respond .ok 0#32 (armBurst (clearStaleLatch s)) := by
  cases Taken.of_runTurn h with
  | command w ht hexec =>
    rcases exec_next_shape hexec with ⟨m, c, f, r, rfl⟩ | ⟨hstart, -, hpayload, hu⟩
    · cases hidle.symm.trans hbusy
    · exact ⟨⟨w, ht, hstart⟩, hpayload, hu⟩
  | acked n =>
    rw [ackEffect_eq] at hbusy
    cases hidle.symm.trans hbusy
  | finalized | reset => cases hbusy
  | polled | passed | wired | completed | levelDriven => cases hidle.symm.trans hbusy

/-- Settles O44: `runTurn_enters_busy`, with the events of `armBurst`, whose last is the ARM. -/
theorem onlyStartEntersBusy : Obligations.OnlyStartEntersBusy := by
  intro s t h hidle hbusy
  obtain ⟨rest, hturn⟩ := step_eq_runTurn s
  obtain ⟨⟨w, hcommand, hstart⟩, hpayload, rfl⟩ :=
    runTurn_enters_busy (s := { s with turns := rest, rsp := none }) hidle hbusy (hturn.symm.trans h)
  have hhead : s.turns.head? = some (.command w) := head?_of_nextTurn Turn.noConfusion hcommand
  obtain ⟨rest', hturns⟩ := List.head?_eq_some_iff.1 hhead
  refine ⟨⟨w, rest', hturns, hstart⟩, hpayload, rfl, ?_⟩
  rw [respond_trace, armBurst_trace, List.getLast?_concat, clearStaleLatch_eq]
  rfl

/-! ### Who writes W -/

/-- Of the commands PREFIX alone stores to cell 0: APPEND's cursor is past it. -/
theorem exec_keeps_cell_zero {i : Instr} {s t : State} (hcursor : 1 ≤ s.cursor) (hi : ∀ d, i ≠ .prefixCell d)
    (h : exec i s = .next t) : Memory.readCell t.mem 0 = Memory.readCell s.mem 0 := by
  cases Executed.of_exec h with
  | append d => exact Memory.readCell_writeCell_other s.mem d (by omega)
  | prefixCell d hprefix => exact absurd hprefix (hi d)
  | start => rw [respond_mem, armBurst_mem, clearStaleLatch_eq]
  | refused | illegal | full | empty => rw [raise_mem]
  | bufReset | answered => rfl

/-- Settles O45: beside the reset only a command writes to the buffer (`runTurn_mem`), and of those only
PREFIX to cell 0. -/
theorem prefixCellPersists : Obligations.PrefixCellPersists := by
  intro s t hi h hnot_prefix hnot_reset
  obtain ⟨rest, hturn⟩ := step_eq_runTurn s
  rcases runTurn_mem (hturn.symm.trans h) with ⟨w, hcommand, hexec⟩ | hreset | hmem
  · have hhead : s.turns.head? = some (.command w) := head?_of_nextTurn Turn.noConfusion hcommand
    exact exec_keeps_cell_zero (s := { s with turns := rest, rsp := none }) hi.cursorRange.1
      (fun d => hnot_prefix w d hhead) hexec
  · exact absurd (head?_of_nextTurn (by decide) hreset) hnot_reset
  · rw [hmem]

/-- Settles O46: SEQ's turns are neither a command nor the reset (`runTurn_mem`). -/
theorem sequencerWritesNoCell : Obligations.SequencerWritesNoCell := by
  intro s t h hseq
  obtain ⟨rest, hturn⟩ := step_eq_runTurn s
  rcases runTurn_mem (hturn.symm.trans h) with ⟨w, hcommand, -⟩ | hreset | hmem
  · rcases nextTurn_of_sequencer hseq with hs | hs | hs <;> cases hs.symm.trans hcommand
  · rcases nextTurn_of_sequencer hseq with hs | hs | hs <;> cases hs.symm.trans hreset
  · exact hmem

end Sys2Proof.Machine
end

