-- ==== Sys2Proof/Proofs/Transfers.lean ====
section
/-! Whole transfers (spec/42_completion_handler.md R90): the runs of START, of the burst's bytes, of the
completion and of the release, put together; and SEQ acting on its own (R89). -/

namespace Sys2Proof.Machine

/-! ### The turns of a transfer, one by one -/

theorem clearStaleLatch_clear {s : State} (h : s.cplPending = false) : clearStaleLatch s = s :=
  if_neg (ne_true_of_eq_false h)

/-- START with a payload and a clear latch. -/
theorem step_start {s : State} {w : CmdWord} {rest : List Turn} (hw : decodeCommand w = .start)
    (hidle : s.xfer = .idle) (hpayload : 2 ≤ s.cursor) (hclear : s.cplPending = false)
    (hturns : s.turns = .command w :: rest) :
    step s = .next (respond .ok 0#32 (armBurst { s with turns := rest })) := by
  rw [step_turn hturns, runTurn_command, hw]
  refine (execStart_arms (s := { s with turns := rest, rsp := none }) hidle (Nat.not_le.2 hpayload)).trans ?_
  rw [clearStaleLatch_clear (s := { s with turns := rest, rsp := none }) hclear]
  rfl

/-- A COMPLETE of the armed burst and the ACK that takes it. -/
theorem runSteps_complete_ack {s : State} {rest : List Turn} (hbusy : s.xfer = .busy)
    (harmed : s.phase = .armed) (hturns : s.turns = .complete :: .ack :: rest) :
    runSteps 2 s = .next { s with
      trace := s.trace ++ [.complete, .cplAck], cplPending := false, phase := .drain
      turns := rest, rsp := none } := by
  have hcomplete : step s = .next (completeStep { s with turns := .ack :: rest, rsp := none }) :=
    step_turn hturns
  have hack : step (completeStep { s with turns := .ack :: rest, rsp := none }) =
      .next (ackEffect (completeStep { s with turns := rest, rsp := none })) :=
    step_turn (s := completeStep { s with turns := .ack :: rest, rsp := none }) rfl
  have hdue := ackEffect_due (s := completeStep { s with turns := rest, rsp := none }) hbusy harmed
  rw [runSteps_succ 1 hcomplete, runSteps_succ 0 hack, runSteps_zero, hdue, ackLatch_eq, completeStep_trace,
    List.append_assoc]
  rfl

theorem step_finalize {s : State} {rest : List Turn} (hbusy : s.xfer = .busy) (hdrain : s.phase = .drain)
    (htx : s.txBusy = false) (hturns : s.turns = .finalize :: rest) :
    step s = .next (releaseBurst { s with turns := rest, rsp := none }) := by
  rw [step_turn hturns, runTurn_finalize]
  exact congrArg _ (finalizeStep_drained (s := { s with turns := rest, rsp := none }) ⟨hbusy, hdrain, htx⟩)

/-- The completion of the armed burst and, the peripheral not busy, its release. -/
theorem runSteps_complete_ack_finalize {s : State} {rest : List Turn} (hbusy : s.xfer = .busy)
    (harmed : s.phase = .armed) (htx : s.txBusy = false)
    (hturns : s.turns = .complete :: .ack :: .finalize :: rest) :
    runSteps 3 s = .next { s with
      trace := s.trace ++ [.complete, .cplAck, .rxRestore, .csDeassert], cplPending := false
      rxSuppressed := false, csActive := false, xfer := .idle, phase := .armed, cursor := 1
      turns := rest, rsp := none } := by
  have hack := runSteps_complete_ack hbusy harmed hturns
  have hrelease := step_finalize (rest := rest) (s := { s with
    trace := s.trace ++ [.complete, .cplAck], cplPending := false, phase := .drain
    turns := .finalize :: rest, rsp := none }) hbusy rfl htx rfl
  rw [runSteps_add 1 hack, runSteps_succ 0 hrelease, runSteps_zero, releaseBurst_eq, List.append_assoc]
  rfl

/-- Settles O48: `step_start` leaves the burst armed, and `runSteps_complete_ack` takes its completion. -/
theorem completionRightAfterStartIsTheBurstsOwn : Obligations.CompletionRightAfterStartIsTheBurstsOwn := by
  intro s w rest hop hidle hpayload hclear hturns
  have hw : decodeCommand w = .start := decodeCommand_of_opField hop (by simp)
  have hstart := step_start hw hidle hpayload hclear hturns
  exact ⟨_, (runSteps_succ 2 hstart).trans (runSteps_complete_ack rfl rfl rfl), rfl, rfl, rfl, rfl, rfl, rfl⟩

/-! ### The bytes of the burst -/

theorem memRead_succ (s : State) (a n : Nat) : memRead s a (n + 1) =
    Memory.burstByte s.mem a s.stream s.draws :: memRead { s with draws := s.draws + 1 } (a + 1) n := by
  simp only [memRead, List.range_succ_eq_map, List.map_cons, List.map_map, Nat.add_zero]
  refine congrArg _ (List.map_congr_left fun j _ => ?_)
  simp only [Function.comp_apply, Nat.succ_eq_add_one]
  rw [Nat.add_right_comm a 1 j, Nat.add_right_comm s.draws 1 j]
  rfl

/-- `s` once PLATFORM has sent the next byte of the burst. -/
def sendByte (s : State) : State := { s with
  trace := s.trace ++ [.wire (Memory.burstByte s.mem (s.armAddr + s.wireSent) s.stream s.draws)]
  wireSent := s.wireSent + 1
  draws := s.draws + 1 }

/-- `s` once PLATFORM has sent the next `n` bytes of the burst. -/
def sendBytes (n : Nat) (s : State) : State := { s with
  trace := s.trace ++ (memRead s (s.armAddr + s.wireSent) n).map .wire
  wireSent := s.wireSent + n
  draws := s.draws + n }

theorem sendBytes_zero (s : State) : sendBytes 0 s = s := by
  simp [sendBytes, memRead]

theorem sendBytes_succ (n : Nat) (s : State) : sendBytes (n + 1) s = sendBytes n (sendByte s) := by
  simp only [sendBytes, sendByte, memRead_succ, List.map_cons, List.append_assoc, List.singleton_append,
    Nat.add_assoc, Nat.add_comm 1 n]
  rfl

/-- One WIRE turn while bytes of the armed burst are left. -/
theorem step_wire {s : State} {rest : List Turn} (henabled : wireEnabled s = true)
    (hinside : s.armAddr + s.wireSent < bufferBytes s.params) (hturns : s.turns = .wire :: rest) :
    step s = .next (sendByte { s with turns := rest, rsp := none }) := by
  rw [step_turn hturns, runTurn_wire]
  exact wireStep_enabled (s := { s with turns := rest, rsp := none }) henabled hinside

/-- Any number of WIRE turns, up to the bytes that are left. -/
theorem runSteps_wires (n : Nat) {s : State} {rest : List Turn} (hbusy : s.xfer = .busy)
    (harmed : s.phase = .armed) (hclear : s.cplPending = false) (hleft : s.wireSent + n ≤ s.armLen)
    (hregion : s.armAddr + s.armLen ≤ bufferBytes s.params)
    (hturns : s.turns = List.replicate n .wire ++ rest) :
    ∃ r, runSteps n s = .next (sendBytes n { s with turns := rest, rsp := r }) := by
  induction n generalizing s with
  | zero =>
    obtain rfl : s.turns = rest := hturns
    exact ⟨s.rsp, congrArg Host.Outcome.next (sendBytes_zero s).symm⟩
  | succ n ih =>
    have hstep := step_wire (wireEnabled_iff.2 ⟨hbusy, harmed, hclear, by omega⟩) (by omega) hturns
    have hleft' : s.wireSent + 1 + n ≤ s.armLen := by omega
    obtain ⟨r, hrun⟩ := ih (s := sendByte { s with turns := List.replicate n .wire ++ rest, rsp := none })
      hbusy harmed hclear hleft' hregion rfl
    refine ⟨r, ((runSteps_succ n hstep).trans hrun).trans ?_⟩
    rw [sendBytes_succ]
    rfl

/-- START, then every byte of the burst it arms. -/
theorem runSteps_start_wires {s : State} {rest : List Turn} (hi : Inv s) (hidle : s.xfer = .idle)
    (hpayload : 2 ≤ s.cursor) (hclear : s.cplPending = false)
    (hturns : s.turns = .command (encode .start) ::
      (List.replicate (burstLen s.params s.cursor) .wire ++ rest)) :
    ∃ r, runSteps (burstLen s.params s.cursor + 1) s =
      .next (sendBytes (burstLen s.params s.cursor) { armBurst s with turns := rest, rsp := r }) := by
  have hstart := step_start (decodeCommand_encode .start) hidle hpayload hclear hturns
  have hregion := burst_ends_inside_buffer hi.params hi.cursorRange.1 hi.cursorRange.2
  rw [runSteps_succ _ hstart]
  exact runSteps_wires _ rfl rfl hclear (Nat.le_of_eq (Nat.zero_add _)) hregion rfl

/-- Settles O49: START and the bytes (`runSteps_start_wires`), then the completion and the release
(`runSteps_complete_ack_finalize`). -/
theorem wholeTransferBracketsItsBurst : Obligations.WholeTransferBracketsItsBurst := by
  intro s rest hi hidle hpayload hclear htx hturns
  obtain ⟨r, hsent⟩ := runSteps_start_wires hi hidle hpayload hclear hturns
  have hrelease := runSteps_complete_ack_finalize (rest := rest) (s := sendBytes (burstLen s.params s.cursor)
    { armBurst s with turns := .complete :: .ack :: .finalize :: rest, rsp := r }) rfl rfl htx rfl
  have hrun := (runSteps_add 3 hsent).trans hrelease
  refine ⟨_, hrun, ?_, rfl, rfl, rfl, rfl, rfl, rfl, rfl, rfl⟩
  rw [armBurst_eq]
  rfl

/-! ### SEQ on its own -/

theorem seqStep_acks {s : State} (hset : s.cplPending = true) (hf : finalizeEnabled s = false) :
    seqStep s = ackEffect s := by
  simp only [seqStep, ackEnabled, hset, hf]

theorem seqStep_finalizes {s : State} (hclear : s.cplPending = false) (hf : finalizeEnabled s = true) :
    seqStep s = releaseBurst s := by
  simp only [seqStep, ackEnabled, hclear, hf]

theorem seqStep_waits {s : State} (hclear : s.cplPending = false) (hf : finalizeEnabled s = false) :
    seqStep s = s := by
  simp only [seqStep, ackEnabled, hclear, hf]

/-- What SEQ can only keep, whichever step it takes: the turns to come, the events so far, a clear latch,
Idle. -/
structure SeqKept (s t : State) : Prop where
  turns : t.turns = s.turns
  trace : ∃ es, t.trace = s.trace ++ es
  clear : s.cplPending = false → t.cplPending = false
  idle : s.xfer = .idle → t.xfer = .idle

theorem seqStep_keeps (s : State) : SeqKept s (seqStep s) := by
  rcases seqStep_cases s with ⟨n, -, heq⟩ | ⟨n, -, heq⟩ | ⟨-, -, heq⟩ <;> rw [heq]
  · rw [ackEffect_eq]
    exact ⟨rfl, ⟨_, rfl⟩, fun _ => rfl, id⟩
  · rw [releaseBurst_eq]
    exact ⟨rfl, ⟨_, rfl⟩, id, fun _ => rfl⟩
  · exact ⟨rfl, ⟨[], (List.append_nil _).symm⟩, id, id⟩

/-- Two steps with nothing placed are two of SEQ's. -/
theorem runSteps_two_nothing_placed {s : State} (h : s.turns = []) :
    runSteps 2 s = .next (seqStep { seqStep { s with rsp := none } with rsp := none }) := by
  have hturns : (seqStep { s with rsp := none }).turns = [] :=
    (seqStep_keeps { s with rsp := none }).turns.trans h
  rw [runSteps_succ 1 (step_nothing_placed h), runSteps_succ 0 (step_nothing_placed hturns), runSteps_zero]

/-- Settles O50: in ARMED only ACK is enabled, and after it, in DRAIN with the latch clear, only FINALIZE.
-/
theorem latchedCompletionEndsTheTransfer : Obligations.LatchedCompletionEndsTheTransfer := by
  intro s hturns hbusy harmed hset htx
  have hnot_drained : finalizeEnabled { s with rsp := none } = false := by simp [finalizeEnabled, harmed]
  have hack : seqStep { s with rsp := none } = { ackLatch { s with rsp := none } with phase := .drain } :=
    (seqStep_acks (s := { s with rsp := none }) hset hnot_drained).trans
      (ackEffect_due (s := { s with rsp := none }) hbusy harmed)
  have hrelease := seqStep_finalizes (s := { seqStep { s with rsp := none } with rsp := none })
    (by rw [hack]; rfl) (by rw [hack]; exact finalizeEnabled_iff.2 ⟨hbusy, rfl, htx⟩)
  refine ⟨_, (runSteps_two_nothing_placed hturns).trans (congrArg _ hrelease), rfl, rfl, ?_, rfl,
    by rw [hack]; rfl⟩
  rw [hack, releaseBurst_eq, ackLatch_eq]
  simp

/-- SEQ takes the ACK of a latched completion in one of two steps. -/
theorem seqStep_twice_acks {s : State} (hset : s.cplPending = true) :
    (seqStep { seqStep s with rsp := none }).cplPending = false ∧
      ∃ es es', (seqStep { seqStep s with rsp := none }).trace = s.trace ++ es ++ .cplAck :: es' := by
  rcases seqStep_cases s with ⟨n, -, heq⟩ | ⟨n, -, heq⟩ | ⟨hnot, -, -⟩
  · have hkept := seqStep_keeps { seqStep s with rsp := none }
    obtain ⟨es', htrace⟩ := hkept.trace
    refine ⟨hkept.clear (by rw [heq, ackEffect_eq]), [], es', ?_⟩
    rw [htrace, heq, ackEffect_eq]
    simp
  · have hack : seqStep { seqStep s with rsp := none } = ackEffect { seqStep s with rsp := none } :=
      seqStep_acks (by rw [heq]; exact hset) (by rw [heq]; rfl)
    rw [hack, ackEffect_eq]
    exact ⟨rfl, [.rxRestore, .csDeassert], [], by rw [heq, releaseBurst_eq]⟩
  · cases hset.symm.trans hnot

/-- SEQ takes an enabled FINALIZE in one of two steps: an ACK before it leaves it enabled. -/
theorem seqStep_twice_finalizes {s : State} (hbusy : s.xfer = .busy) (hdrain : s.phase = .drain)
    (htx : s.txBusy = false) : (seqStep { seqStep s with rsp := none }).xfer = .idle ∧
      ∃ es es', (seqStep { seqStep s with rsp := none }).trace = s.trace ++ es ++ .csDeassert :: es' := by
  rcases seqStep_cases s with ⟨n, -, heq⟩ | ⟨n, -, heq⟩ | ⟨-, hnot, -⟩
  · have hdrained : finalizeEnabled { seqStep s with rsp := none } = true := by
      rw [heq, ackEffect_eq]
      exact finalizeEnabled_iff.2 ⟨hbusy, if_pos hbusy, htx⟩
    have hrelease : seqStep { seqStep s with rsp := none } = releaseBurst { seqStep s with rsp := none } :=
      seqStep_finalizes (by rw [heq, ackEffect_eq]) hdrained
    rw [hrelease, releaseBurst_eq]
    exact ⟨rfl, [.cplAck, .rxRestore], [], by rw [heq, ackEffect_eq]; simp⟩
  · have hkept := seqStep_keeps { seqStep s with rsp := none }
    obtain ⟨es', htrace⟩ := hkept.trace
    refine ⟨hkept.idle (by rw [heq]; rfl), [.rxRestore], es', ?_⟩
    rw [htrace, heq, releaseBurst_eq]
    simp
  · exact absurd (finalizeEnabled_iff.2 ⟨hbusy, hdrain, htx⟩) (ne_true_of_eq_false hnot)

/-- An event appended to the trace stands behind its old length. -/
theorem mem_drop_of_trace_eq {s t : State} {e : Event} {es es' : List Event}
    (h : t.trace = s.trace ++ es ++ e :: es') : e ∈ t.trace.drop s.trace.length := by
  rw [h, List.append_assoc, List.drop_left]
  simp

/-- Settles O51: two steps of SEQ (`runSteps_two_nothing_placed`) take each of the two, whichever comes
first. -/
theorem enabledSequencerStepsAreTaken : Obligations.EnabledSequencerStepsAreTaken := by
  refine fun s hturns => ⟨fun hset => ?_, fun hbusy hdrain htx => ?_⟩
  · obtain ⟨hclear, es, es', htrace⟩ := seqStep_twice_acks (s := { s with rsp := none }) hset
    exact ⟨_, runSteps_two_nothing_placed hturns, hclear, mem_drop_of_trace_eq (s := s) htrace⟩
  · obtain ⟨hidle, es, es', htrace⟩ := seqStep_twice_finalizes (s := { s with rsp := none }) hbusy hdrain htx
    exact ⟨_, runSteps_two_nothing_placed hturns, hidle, mem_drop_of_trace_eq (s := s) htrace⟩

end Sys2Proof.Machine
end

