-- ==== Sys2Proof/Proofs/DrainHang.lean ====
section
/-! The drain hang (spec/60_exceptions.md R106) and POLL_IDLE (spec/30_encoding.md R67): what every turn
leaves of a held drain, over one step and over any number, and where the loop stands among the turns. -/

namespace Sys2Proof.Machine

/-! ### POLL_IDLE -/

theorem pollIdle_mem_pollRound (ts : List Turn) : .pollIdle ∈ pollRound ts := by
  unfold pollRound
  split
  · simp
  · split <;> simp

/-- The loop's next round adds SEQ's turn and the next pass, and no other turn. -/
theorem mem_pollRound {ts : List Turn} {t : Turn} (h : t ∈ pollRound ts) :
    t = .seq ∨ t = .pollIdle ∨ t ∈ ts := by
  unfold pollRound at h
  split at h
  · simpa using h
  · split at h
    · simpa using h
    · simp only [List.mem_cons] at h ⊢
      tauto

/-- One pass: the busy byte is answered, and the loop is placed again where it is not zero. -/
theorem step_pollIdle {s : State} {rest : List Turn} (hturns : s.turns = .pollIdle :: rest) :
    step s = .next { respond .ok (statusRead s) s with
      turns := if statusRead s = 0#32 then rest else pollRound rest } := by
  rw [step_turn hturns, runTurn_pollIdle, pollStep_eq]
  show Host.Outcome.next (if statusRead s = 0#32 then _ else _) = _
  split <;> rfl

theorem statusRead_ne_zero {s : State} (hwf : s.params.wf) (hbusy : s.xfer = .busy) : statusRead s ≠ 0#32 :=
  fun hzero => TransferState.noConfusion (hbusy.symm.trans ((statusRead_eq_zero_iff hwf).1 hzero))

/-- Settles O53: `step_pollIdle`, with what `statusRead` is while Idle and while Busy. -/
theorem pollLoopExitsExactlyWhenIdle : Obligations.PollLoopExitsExactlyWhenIdle := by
  intro s rest hwf hturns
  refine ⟨_, statusRead s, step_pollIdle hturns, rfl, rfl, fun hidle => ?_, fun hbusy => ?_, rfl, rfl, rfl, rfl⟩
  · exact ⟨statusRead_idle hidle, if_pos (statusRead_idle hidle)⟩
  · have hnonzero : statusRead s ≠ 0#32 := statusRead_ne_zero hwf hbusy
    obtain ⟨hlow, hbound⟩ := statusRead_busy_low_byte hbusy
    refine ⟨hlow, hbound, hnonzero, ?_⟩
    show Turn.pollIdle ∈ if statusRead s = 0#32 then rest else pollRound rest
    rw [if_neg hnonzero]
    exact pollIdle_mem_pollRound rest

/-- The turns to come are left as they are by every turn but a pass of POLL_IDLE that goes round again. -/
theorem runTurn_turns {t : Turn} {s u : State} (h : runTurn t s = .next u) :
    u.turns = s.turns ∨ (t = .pollIdle ∧ u.turns = pollRound s.turns) := by
  cases Taken.of_runTurn h with
  | command w _ hexec =>
    rcases exec_next_shape hexec with ⟨m, c, f, r, rfl⟩ | ⟨-, -, -, rfl⟩
    · exact .inl rfl
    · simp [clearStaleLatch_eq]
  | polled ts hpoll =>
    rw [hpoll, runTurn_pollIdle] at h
    rcases pollStep_cases s with hleft | hagain
    · have hts : ts = s.turns := congrArg State.turns (Host.Outcome.next.inj (h.symm.trans hleft))
      exact .inl hts
    · have hts : ts = pollRound s.turns := congrArg State.turns (Host.Outcome.next.inj (h.symm.trans hagain))
      exact .inr ⟨hpoll, hts⟩
  | acked n => exact .inl (by rw [ackEffect_eq])
  | _ => exact .inl rfl

/-- A step places no turn but SEQ's and the loop's own. -/
theorem mem_turns_of_step {s t : State} (h : step s = .next t) {x : Turn} (hx : x ∈ t.turns) :
    x = .seq ∨ x = .pollIdle ∨ x ∈ s.turns := by
  cases hturns : s.turns with
  | nil =>
    rw [step_nothing_placed hturns] at h
    cases h
    rw [(seqStep_keeps { s with rsp := none }).turns, hturns] at hx
    exact .inr (.inr hx)
  | cons a rest =>
    rw [step_turn hturns] at h
    rcases runTurn_turns h with heq | ⟨-, heq⟩ <;> rw [heq] at hx
    · exact .inr (.inr (List.mem_cons_of_mem a hx))
    · exact (mem_pollRound hx).imp_right (.imp_right (List.mem_cons_of_mem a))

/-- While Busy a placed POLL_IDLE is not left: its pass goes round again. -/
theorem pollIdle_mem_of_step {s t : State} (hwf : s.params.wf) (hbusy : s.xfer = .busy) (h : step s = .next t)
    (hpoll : .pollIdle ∈ s.turns) : .pollIdle ∈ t.turns := by
  obtain ⟨a, rest, hturns⟩ := List.exists_cons_of_ne_nil (List.ne_nil_of_mem hpoll)
  by_cases hhead : a = .pollIdle
  · obtain ⟨u, d, hstep, -, -, -, hround, -⟩ := pollLoopExitsExactlyWhenIdle s rest hwf (hhead ▸ hturns)
    obtain ⟨-, -, -, hplaced⟩ := hround hbusy
    cases hstep.symm.trans h
    exact hplaced
  · rw [step_turn hturns] at h
    rcases runTurn_turns h with heq | ⟨hpass, -⟩
    · rw [hturns] at hpoll
      rw [heq]
      exact List.mem_of_ne_of_mem (Ne.symm hhead) hpoll
    · exact absurd hpass hhead

/-! ### The hang, in every order -/

/-- A held drain stops no turn. -/
theorem Draining.runTurn_next {s : State} (hd : Draining s) (t : Turn) : ∃ u, runTurn t s = .next u := by
  cases t with
  | command w =>
    obtain ⟨f, r, hexec⟩ := exec_busy hd.1 (decodeCommand w)
    exact ⟨_, hexec⟩
  | pollIdle => exact ⟨_, pollStep_eq s⟩
  | wire => exact ⟨s, wireStep_disabled hd.wire_disabled⟩
  | seq | ack | finalize | complete | txBusy | hwReset => exact ⟨_, rfl⟩

/-- A turn that cannot end the drain wait leaves a level of 1 as it is. -/
theorem runTurn_keeps_txBusy {t : Turn} {s u : State} (ht : t.endsDrain = false) (htx : s.txBusy = true)
    (h : runTurn t s = .next u) : u.txBusy = true := by
  rcases runTurn_txBusy_level h with hlevel | hkept
  · cases hu : u.txBusy with
    | true => rfl
    | false =>
      rw [hlevel, hu] at ht
      cases ht
  · exact hkept.trans htx

/-- The step of a held drain: the burst is held (`step_busy`), FINALIZE being disabled. -/
theorem Draining.step {s : State} (hd : Draining s) (hend : (nextTurn s).1.endsDrain = false) :
    ∃ t, step s = .next t ∧ Draining t ∧ BurstHeld s t := by
  obtain ⟨hbusy, hdrain, htx⟩ := hd
  obtain ⟨rest, hturn⟩ := step_eq_runTurn s
  obtain ⟨t, hnext⟩ := Draining.runTurn_next (s := { s with turns := rest, rsp := none })
    ⟨hbusy, hdrain, htx⟩ (nextTurn s).1
  have hstep : Machine.step s = .next t := hturn.trans hnext
  have hlevel : t.txBusy = true := 
    runTurn_keeps_txBusy (s := { s with turns := rest, rsp := none }) hend htx hnext
  rcases step_busy hbusy hstep with hheld | hreset | ⟨hdrained, -⟩
  · exact ⟨t, hstep, ⟨hheld.xfer, hheld.drain hdrain, hlevel⟩, hheld⟩
  · rw [hreset] at hend
    cases hend
  · cases (Draining.finalize_disabled ⟨hbusy, hdrain, htx⟩).symm.trans hdrained

/-- Settles O58: `Draining.step`. -/
theorem drainHangSurvivesEveryOtherTurn : Obligations.DrainHangSurvivesEveryOtherTurn := by
  intro s hd hend
  obtain ⟨t, hstep, hd', hheld⟩ := hd.step hend
  exact ⟨t, hstep, hd', hheld.csActive, hheld.rxSuppressed, hheld.cursor, hheld.mem,
    hheld.armAddr, hheld.armLen⟩

/-- The next turn cannot end the drain wait if no placed one can. -/
theorem endsDrain_nextTurn {s : State} (h : ∀ t ∈ s.turns, t.endsDrain = false) :
    (nextTurn s).1.endsDrain = false := by
  obtain ⟨t, rest, -, rfl, ⟨-, hseq⟩ | hturns⟩ := step_cases s
  · rw [hseq]
    rfl
  · exact h _ (hturns ▸ List.mem_cons_self)

/-- Neither does a step place a turn that can. -/
theorem endsDrain_of_step {s t : State} (h : ∀ x ∈ s.turns, x.endsDrain = false) (hstep : step s = .next t) :
    ∀ x ∈ t.turns, x.endsDrain = false := by
  intro x hx
  rcases mem_turns_of_step hstep hx with rfl | rfl | hplaced
  · rfl
  · rfl
  · exact h x hplaced

/-- Settles O59: by induction on the number of steps, each being `Draining.step`; the turns to come stay
free of a fall and a reset (`endsDrain_of_step`) and keep POLL_IDLE (`pollIdle_mem_of_step`). -/
theorem drainHangHoldsInEveryOrder : Obligations.DrainHangHoldsInEveryOrder := by
  intro s k hd hturns
  induction k generalizing s with
  | zero => exact ⟨s, rfl, hd, rfl, rfl, rfl, fun _ hpoll => hpoll⟩
  | succ k ih =>
    obtain ⟨u, hstep, hd', hheld⟩ := hd.step (endsDrain_nextTurn hturns)
    obtain ⟨hparams, -⟩ := step_keeps_params_stream hstep
    obtain ⟨t, hrun, hd'', hcs, hcursor, hmem, hpoll⟩ := ih u hd' (endsDrain_of_step hturns hstep)
    exact ⟨t, (runSteps_succ k hstep).trans hrun, hd'', hcs.trans hheld.csActive, hcursor.trans hheld.cursor,
      hmem.trans hheld.mem, fun hwf hplaced =>
        hpoll (hparams ▸ hwf) (pollIdle_mem_of_step hwf hd.1 hstep hplaced)⟩

/-! ### The hang, in the two orders where no event comes -/

theorem DrainHolds.draining {s : State} (h : DrainHolds s) : Draining s := by
  obtain ⟨hbusy, hdrain, htx, -⟩ := h
  exact ⟨hbusy, hdrain, htx⟩

/-- SEQ has nothing to do but wait. -/
theorem DrainHolds.seqStep_waits {s : State} (h : DrainHolds s) : seqStep s = s := by
  have hdisabled : finalizeEnabled s = false := h.draining.finalize_disabled
  obtain ⟨-, -, -, hclear⟩ := h
  exact Machine.seqStep_waits hclear hdisabled

/-- Settles O52: by induction on the number of steps, in each of which SEQ waits. -/
theorem drainHangHoldsForEver : Obligations.DrainHangHoldsForEver := by
  intro s k hs hturns
  induction k generalizing s with
  | zero => exact ⟨s, rfl, hs, rfl, rfl, rfl, rfl⟩
  | succ k ih =>
    have hwait := DrainHolds.seqStep_waits (s := { s with rsp := none }) hs
    have hstep : step s = .next { s with rsp := none } := by rw [step_nothing_placed hturns, hwait]
    obtain ⟨t, hrun, ht⟩ := ih { s with rsp := none } hs hturns
    exact ⟨t, (runSteps_succ k hstep).trans hrun, ht⟩

/-- One step of a hang with POLL_IDLE alone placed: its pass, or SEQ's wait between two passes. -/
theorem DrainHolds.step_poll {s : State} (hwf : s.params.wf) (h : DrainHolds s)
    (hturns : s.turns = [.pollIdle] ∨ s.turns = [.seq, .pollIdle]) :
    ∃ t, step s = .next t ∧ DrainHolds t ∧ t.params = s.params ∧ t.trace = s.trace ∧
      (t.turns = [.pollIdle] ∨ t.turns = [.seq, .pollIdle]) := by
  rcases hturns with hturns | hturns
  · exact ⟨_, step_pollIdle hturns, h, rfl, rfl, .inr (if_neg (statusRead_ne_zero hwf h.1))⟩
  · have hwait := DrainHolds.seqStep_waits (s := { s with turns := [.pollIdle], rsp := none }) h
    exact ⟨_, (step_turn hturns).trans (congrArg Host.Outcome.next hwait), h, rfl, rfl, .inl rfl⟩

theorem DrainHolds.runSteps_poll (k : Nat) {s : State} (hwf : s.params.wf) (hs : DrainHolds s)
    (hturns : s.turns = [.pollIdle] ∨ s.turns = [.seq, .pollIdle]) :
    ∃ t, runSteps k s = .next t ∧ DrainHolds t ∧ .pollIdle ∈ t.turns ∧ t.trace = s.trace := by
  induction k generalizing s with
  | zero =>
    have hplaced : .pollIdle ∈ s.turns := by rcases hturns with h | h <;> simp [h]
    exact ⟨s, rfl, hs, hplaced, rfl⟩
  | succ k ih =>
    obtain ⟨u, hstep, hu, hparams, htrace, hturns'⟩ := hs.step_poll hwf hturns
    obtain ⟨t, hrun, ht, hplaced, htrace'⟩ := ih (hparams ▸ hwf) hu hturns'
    exact ⟨t, (runSteps_succ k hstep).trans hrun, ht, hplaced, htrace'.trans htrace⟩

/-- Settles O54: any number of steps of `DrainHolds.step_poll`. -/
theorem pollLoopNeverExitsInADrainHang : Obligations.PollLoopNeverExitsInADrainHang :=
  fun _ k hwf hs hturns => hs.runSteps_poll k hwf (.inl hturns)

end Sys2Proof.Machine
end

