-- ==== Sys2Proof/Proofs/Duties.lean ====
section
/-! The duties of the outside parties (spec/42_completion_handler.md R84 to R88,
spec/70_reset_and_hazards.md R124): what a polite PRODUCER and a dutiful PLATFORM keep true from step to
step. -/

namespace Sys2Proof.Machine

/-! ### The duties, turn by turn -/

theorem dutiful_complete {shifts : Bool} {s : State} : dutiful shifts .complete s = true ↔
    s.xfer = .busy ∧ s.phase = .armed ∧ s.cplPending = false ∧ s.wireSent = s.armLen := by
  simp [dutiful, and_assoc]

theorem dutiful_wire {shifts : Bool} {s : State} : dutiful shifts .wire s = true ↔
    (wireEnabled s = true → shifts = true → s.txBusy = true) := by
  cases hw : wireEnabled s <;> cases shifts <;> simp [dutiful, hw]

theorem dutiful_rise {shifts : Bool} {s : State} : dutiful shifts (.txBusy true) s = true ↔
    shifts = true ∧ s.xfer = .busy ∧ (bytesLeft s = true ∨ s.txBusy = true) := by
  simp only [dutiful, Bool.and_eq_true, Bool.or_eq_true, decide_eq_true_eq, and_assoc]

theorem dutiful_fall {shifts : Bool} {s : State} : dutiful shifts (.txBusy false) s = true ↔
    (bytesLeft s = true → s.txBusy = false) := by
  cases hb : bytesLeft s <;> simp [dutiful, hb]

/-- A polite PRODUCER presents no reserved opcode, and the four commands that test the transfer state only
while Idle. -/
theorem polite_command {w : CmdWord} {s : State} (h : polite (.command w) s = true) :
    decodeCommand w ≠ .reserved000 ∧
      ((decodeCommand w = .bufReset ∨ decodeCommand w = .start ∨ (∃ d, decodeCommand w = .append d) ∨
        ∃ d, decodeCommand w = .prefixCell d) → s.xfer = .idle) := by
  unfold polite at h
  cases hi : decodeCommand w with
  | reserved000 => simp [hi] at h
  | bufReset | append | prefixCell | start => simpa [hi] using h
  | isBusy | length | readFaults => simp

/-! ### No fault is recorded -/

/-- While Idle no completion is latched. -/
theorem LatchOwned.clear_of_idle {s : State} (hl : LatchOwned s) (hidle : s.xfer = .idle) :
    s.cplPending = false := by
  cases hset : s.cplPending with
  | false => rfl
  | true => cases hidle.symm.trans (hl hset).1

/-- Nor in the drain wait. -/
theorem LatchOwned.clear_of_drain {s : State} (hl : LatchOwned s) (hdrain : s.phase = .drain) :
    s.cplPending = false := by
  cases hset : s.cplPending with
  | false => rfl
  | true => cases hdrain.symm.trans (hl hset).2

theorem exec_records_no_fault {w : CmdWord} {s t : State} (hf : FaultFree s) (hl : LatchOwned s)
    (hpolite : polite (.command w) s = true) (h : exec (decodeCommand w) s = .next t) :
    FaultFree t ∧ LatchOwned t := by
  obtain ⟨hnot_reserved, hmutates_idle⟩ := polite_command hpolite
  cases Executed.of_exec h with
  | refused hbusy hmutating => cases hbusy.symm.trans (hmutates_idle hmutating)
  | illegal hreserved => exact absurd hreserved hnot_reserved
  | start _ hidle =>
    have hclear : s.cplPending = false := hl.clear_of_idle hidle
    rw [clearStaleLatch_clear hclear]
    exact ⟨hf, fun _ => ⟨rfl, rfl⟩⟩
  | bufReset | full | append | prefixCell | empty | answered => exact ⟨hf, hl⟩

theorem runTurn_records_no_fault {shifts : Bool} {t : Turn} {s u : State} (hf : FaultFree s)
    (hl : LatchOwned s) (hpolite : polite t s = true) (hdutiful : dutiful shifts t s = true)
    (h : runTurn t s = .next u) : FaultFree u ∧ LatchOwned u := by
  cases Taken.of_runTurn h with
  | command w ht hexec => exact exec_records_no_fault hf hl (ht ▸ hpolite) hexec
  | acked n _ hset =>
    obtain ⟨hbusy, harmed⟩ := hl hset
    rw [ackEffect_due (s := { s with choices := n }) hbusy harmed]
    exact ⟨hf, fun hpending => Bool.noConfusion hpending⟩
  | finalized n _ hdrained =>
    obtain ⟨-, hdrain, -⟩ := finalizeEnabled_iff.1 hdrained
    have hclear : s.cplPending = false := hl.clear_of_drain hdrain
    exact ⟨hf, fun hpending => Bool.noConfusion (hclear.symm.trans hpending)⟩
  | completed ht =>
    obtain ⟨hbusy, harmed, -, -⟩ := dutiful_complete.1 (ht ▸ hdutiful)
    exact ⟨hf, fun _ => ⟨hbusy, harmed⟩⟩
  | reset => exact ⟨rfl, fun hpending => Bool.noConfusion hpending⟩
  | polled | passed | wired | levelDriven => exact ⟨hf, hl⟩

/-- Settles O55: `runTurn_records_no_fault` splits on what the turn does; neither duty looks at the turns
or the response. -/
theorem dutifulPartiesRecordNoFault : Obligations.DutifulPartiesRecordNoFault := by
  intro shifts s t hf hl hpolite hdutiful h
  obtain ⟨rest, hturn⟩ := step_eq_runTurn s
  exact runTurn_records_no_fault (s := { s with turns := rest, rsp := none }) hf hl hpolite hdutiful
    (hturn.symm.trans h)

/-! ### The whole burst is framed -/

theorem exec_keeps_duty {shifts : Bool} {i : Instr} {s t : State} (hd : OnDuty shifts s)
    (h : exec i s = .next t) : OnDuty shifts t := by
  rcases exec_next_shape h with ⟨m, c, f, r, rfl⟩ | ⟨-, -, -, rfl⟩
  · exact ⟨hd.wholeBurst, hd.shiftingShown, hd.tiedLow⟩
  · rw [clearStaleLatch_eq]
    refine ⟨fun _ hdone => ?_, fun _ hsent => absurd hsent (Nat.lt_irrefl 0), hd.tiedLow⟩
    rcases hdone with hpending | hdrain
    · cases hpending
    · cases hdrain

/-- A byte goes out only before the completion, and where the peripheral shifts independently with tx_busy
risen. -/
theorem OnDuty.wired {shifts : Bool} {s u : State} (hd : OnDuty shifts s) (henabled : wireEnabled s = true)
    (hdutiful : dutiful shifts .wire s = true) (hphase : u.phase = s.phase)
    (hpending : u.cplPending = s.cplPending) (htx : u.txBusy = s.txBusy) : OnDuty shifts u where
  wholeBurst _ hdone := by
    obtain ⟨-, harmed, hclear, -⟩ := wireEnabled_iff.1 henabled
    rw [hpending, hclear, hphase, harmed] at hdone
    rcases hdone with h | h <;> cases h
  shiftingShown hshifts _ _ := htx.trans (dutiful_wire.1 hdutiful henabled hshifts)
  tiedLow hshifts := htx.trans (hd.tiedLow hshifts)

/-- tx_busy rises only for a peripheral that shifts independently, and falls only with no byte left. -/
theorem OnDuty.levelDriven {shifts level : Bool} {s : State} (hd : OnDuty shifts s)
    (hdutiful : dutiful shifts (.txBusy level) s = true) : OnDuty shifts (txBusyStep level s) where
  wholeBurst := hd.wholeBurst
  shiftingShown hshifts hsent hleft := by
    cases level with
    | true => rfl
    | false => cases (dutiful_fall.1 hdutiful hleft).symm.trans (hd.shiftingShown hshifts hsent hleft)
  tiedLow hshifts := by
    cases level with
    | false => rfl
    | true => cases hshifts.symm.trans (dutiful_rise.1 hdutiful).1

/-- While Idle there is no burst to frame. -/
theorem OnDuty.of_idle {shifts : Bool} {s u : State} (hd : OnDuty shifts s) (hidle : u.xfer = .idle)
    (htx : u.txBusy = s.txBusy) : OnDuty shifts u where
  wholeBurst hbusy := by cases hidle.symm.trans hbusy
  shiftingShown _ _ hleft := by cases hidle.symm.trans (bytesLeft_iff.1 hleft).1
  tiedLow hshifts := htx.trans (hd.tiedLow hshifts)

theorem runTurn_keeps_duty {shifts : Bool} {t : Turn} {s u : State} (hd : OnDuty shifts s)
    (hdutiful : dutiful shifts t s = true) (h : runTurn t s = .next u) : OnDuty shifts u := by
  cases Taken.of_runTurn h with
  | command w _ hexec => exact exec_keeps_duty hd hexec
  | polled | passed => exact ⟨hd.wholeBurst, hd.shiftingShown, hd.tiedLow⟩
  | acked n _ hset =>
    rw [ackEffect_eq]
    exact ⟨fun hbusy _ => hd.wholeBurst hbusy (.inl hset), hd.shiftingShown, hd.tiedLow⟩
  | finalized | reset => exact hd.of_idle rfl rfl
  | wired ht henabled => exact hd.wired henabled (ht ▸ hdutiful) rfl rfl rfl
  | completed ht =>
    obtain ⟨-, -, -, hwhole⟩ := dutiful_complete.1 (ht ▸ hdutiful)
    exact ⟨fun _ _ => hwhole, hd.shiftingShown, hd.tiedLow⟩
  | levelDriven level ht => exact hd.levelDriven (ht ▸ hdutiful)

/-- A change of tx_busy is a TX_BUSY turn's. -/
theorem nextTurn_of_txBusy_changed {s t : State} (h : step s = .next t) (hchanged : t.txBusy ≠ s.txBusy) :
    (nextTurn s).1 = .txBusy t.txBusy := by
  obtain ⟨rest, hturn⟩ := step_eq_runTurn s
  exact (runTurn_txBusy_level (hturn.symm.trans h)).resolve_right hchanged

/-- Settles O60: the duty is kept turn by turn (`runTurn_keeps_duty`); the level changes only by a dutiful
TX_BUSY turn; and Busy is left, but by a reset, only from DRAIN (`step_busy`), which the duty enters with
all bytes sent. -/
theorem dutifulPlatformFramesTheWholeBurst : Obligations.DutifulPlatformFramesTheWholeBurst := by
  intro shifts s t hd hdutiful h
  refine ⟨?_, fun hlow hhigh => ?_, fun hhigh hlow => ?_, fun hbusy hidle hnot_reset => ?_⟩
  · obtain ⟨rest, hturn⟩ := step_eq_runTurn s
    exact runTurn_keeps_duty (s := { s with turns := rest, rsp := none })
      ⟨hd.wholeBurst, hd.shiftingShown, hd.tiedLow⟩ hdutiful (hturn.symm.trans h)
  · have hrise : (nextTurn s).1 = .txBusy t.txBusy :=
      nextTurn_of_txBusy_changed h (by rw [hlow, hhigh]; decide)
    rw [hrise, hhigh] at hdutiful
    obtain ⟨hshifts, -, hleft⟩ := dutiful_rise.1 hdutiful
    exact ⟨hshifts, hleft.resolve_right (ne_true_of_eq_false hlow)⟩
  · have hfall : (nextTurn s).1 = .txBusy t.txBusy :=
      nextTurn_of_txBusy_changed h (by rw [hlow, hhigh]; decide)
    rw [hfall, hlow] at hdutiful
    exact eq_false_of_ne_true fun hleft => ne_true_of_eq_false (dutiful_fall.1 hdutiful hleft) hhigh
  · rcases step_busy hbusy h with hheld | hreset | ⟨hdrained, -⟩
    · cases hheld.xfer.symm.trans hidle
    · exact absurd hreset hnot_reset
    · obtain ⟨-, hdrain, htx⟩ := finalizeEnabled_iff.1 hdrained
      exact ⟨hd.wholeBurst hbusy (.inr hdrain), htx⟩

end Sys2Proof.Machine
end
